-- ==== Sys2Proof/Word.lean ====
section
/-! DEFINITION. The word types of lc3-vm CORE (spec rules R5, R6, R10, R55). -/

namespace Sys2Proof

/-- A register, a memory cell, an address or an instruction: 16 bits (R5, R6). -/
abbrev Word := BitVec 16

/-- A character code of the two character channels: an opaque 8-bit value (R22, R24). -/
abbrev Byte := BitVec 8

/-- The 3-bit index of a general register R0 to R7 (R11). -/
abbrev RegIdx := BitVec 3

/-- The 3-bit condition register, and the n, z, p field of BR: bit 2 is N, bit 1 is Z, bit 0 is P (R15). -/
abbrev Cond := BitVec 3

end Sys2Proof
end

