-- ==== Sys2Proof/Config.lean ====
section
/-! DEFINITION. The implementation parameters of R5, as plain data that a run carries unchanged.
Their default values stand in Sys2Proof/Machine/Defaults.lean. Beside them the one free value of the model: the endless schedules of INPUT. -/

namespace Sys2Proof

/-- The parameters of R5 that the model takes as arguments (PC_START, KBSR_ADDR, KBDR_ADDR, IN_PROMPT, HALT_NOTICE).
MEM_INIT and INPUT are the memory and the character queue (with its arrivals) that a run starts with. -/
structure Config where
  /-- PC_START, the value of the program counter after reset (R26, R136). -/
  pcStart : Word
  /-- KBSR_ADDR, the address of the keyboard status register (R33). -/
  kbsrAddr : Word
  /-- KBDR_ADDR, the address of the keyboard data register (R34). -/
  kbdrAddr : Word
  /-- IN_PROMPT, the bytes TRAP IN writes before it waits (R100). -/
  inPrompt : List Byte
  /-- HALT_NOTICE, the bytes TRAP HALT writes (R102). -/
  haltNotice : List Byte
  deriving DecidableEq, Repr

/-- KBDR_ADDR must not equal KBSR_ADDR (R5, R34). -/
def Config.valid (c : Config) : Bool := c.kbsrAddr != c.kbdrAddr

/-- The characters, oldest first, that an endless schedule of INPUT brings before its move number `time`; `schedule` tells such
schedules apart. A free value with no body (R23, decision D23, U6; DESIGN CHOICE, log 22): a claim about a state whose `later` is
`.endless` holds for every schedule, finite or infinite. -/
opaque Config.freeArrivals (schedule time : Nat) : List Byte

end Sys2Proof
end

