-- ==== Sys2Proof/Machine/Defaults.lean ====
section
/-! DEFINITION. The default values of the parameters of R5, which `State.reset` takes. -/

namespace Sys2Proof.Machine

/-- The 19 bytes of `Enter a character: ` (R5). PRESUMED with the spec, log 3. -/
def defaultPrompt : List Byte :=
  [0x45#8, 0x6E#8, 0x74#8, 0x65#8, 0x72#8, 0x20#8, 0x61#8, 0x20#8, 0x63#8, 0x68#8,
   0x61#8, 0x72#8, 0x61#8, 0x63#8, 0x74#8, 0x65#8, 0x72#8, 0x3A#8, 0x20#8]

/-- The 5 bytes of `HALT` and a line feed (R5). PRESUMED with the spec, log 3. -/
def defaultNotice : List Byte := [0x48#8, 0x41#8, 0x4C#8, 0x54#8, 0x0A#8]

/-- Every parameter at the default R5 gives it. PRESUMED with the spec, log 3, but for PC_START. -/
def defaultConfig : Config :=
  { pcStart := 0x3000#16, kbsrAddr := 0xFE00#16, kbdrAddr := 0xFE02#16,
    inPrompt := defaultPrompt, haltNotice := defaultNotice }

end Sys2Proof.Machine
end

