-- ==== Sys2Proof/Machine/State.lean ====
section
/-! DEFINITION. The state of lc3-vm CORE (R10), as plain data, the reasons a step can stop, and the state after reset (R26). -/

namespace Sys2Proof.Machine

/-- One listed cell of memory: its address and the 16 bits it holds. The unit of addressing is the 16-bit cell, and there is
no byte address (R30), so the spec's smallest unit is the model's (DESIGN CHOICE, log 1). -/
abbrev MemCell := Nat × Word

/-- The memory array of R21: the listed cells, addresses strictly rising, none holding what an unlisted address reads as
(`Memory.wf` in Sys2Proof/Machine/Ops.lean). -/
abbrev Memory := List MemCell

/-- The TRAP routine a step is inside of and has not finished: the only two places where an instruction stays incomplete
(R104, R120). The model's own field holds it between the model's steps (DESIGN CHOICE, log 5 and log 6). -/
inductive Held where
  /-- GETC waits for a character (R97, R104). -/
  | getc
  /-- IN has written its prompt and waits for a character (R100, R104). -/
  | inp
  /-- PUTS walks a memory that holds no zero cell (R99, R104). -/
  | puts
  /-- PUTSP walks a memory that holds no zero cell (R101, R104). -/
  | putsp
  deriving DecidableEq, Repr

/-- What the environment does at the boundary before one step of the engine (R9, R23, R135).
A list of these is the model's own way to write an arrival schedule of the parameter INPUT (DESIGN CHOICE, log 7).
The host has no move while the engine runs (decision D26; DEDUCED, log 17). -/
inductive EnvMove where
  /-- These characters, oldest first, are appended to the input queue, possibly none (R23). -/
  | arrive (cs : List Byte)
  /-- Reset is applied and released (R135). -/
  | reset
  deriving DecidableEq, Repr

/-- What the environment does once the listed moves are used up (R23, U6; DESIGN CHOICE, log 7 and log 22). -/
inductive Later where
  /-- Nothing more ever arrives: the schedule is finite. -/
  | quiet
  /-- The endless schedule number `schedule` goes on with its move number `time`, `Config.freeArrivals schedule time`. -/
  | endless (schedule time : Nat)
  deriving DecidableEq, Repr

/-- The machine raises no exception and no instruction can stop it by a fault (R115, R116): the type has no value.
Nothing raises a fault, which is what the spec says (DEDUCED, log 20). Safe. -/
inductive Fault where
  deriving DecidableEq, Repr

/-- Why a step has no meaning. -/
inductive Refusal where
  /-- Raised by an arm of `exec` whose instruction has no meaning yet; no arm raises it now. Safe. -/
  | notModelled (mnemonic : String)
  /-- Raised by every step of a machine whose KBSR_ADDR equals its KBDR_ADDR: such a configuration is rejected
  (R34, decision D31; DEDUCED, log 9). Safe. -/
  | invalidConfig
  deriving DecidableEq, Repr

/-- The complete state of R10, the three fields of the model's own (`held`, `env`, `later`) and the parameters of R5 (`cfg`). -/
structure State where
  /-- R0 to R7 (R11). -/
  x : Vector Word 8
  /-- The program counter (R13). -/
  pc : Word
  /-- The condition codes N, Z, P (R15). -/
  cond : Cond
  /-- The run latch (R18). -/
  run : Bool
  /-- The memory array, the two keyboard cells included (R21). -/
  mem : Memory
  /-- The input queue IN, oldest character first (R22). -/
  inq : List Byte
  /-- The output list OUT, in the order written (R24). -/
  out : List Byte
  /-- The model's own field: the TRAP routine that has not finished (R104, R129). -/
  held : Option Held
  /-- The model's own field: what the environment does before each of the coming steps (R23, R135). -/
  env : List EnvMove
  /-- The model's own field: what the environment does after those moves (R23). -/
  later : Later
  /-- The parameters of the run (R5). -/
  cfg : Config
  deriving DecidableEq, Repr

/-- The state at the start of a run (R26, R135, R142) with the parameters `cfg`, the memory MEM_INIT, the characters the
input source already holds, the environment's coming moves and what comes after them. `cond` is 0 (decision D18; DEDUCED, log 10). -/
def State.launch (cfg : Config) (memInit : Memory) (inq : List Byte) (env : List EnvMove)
    (later : Later) : State :=
  { x := Vector.replicate 8 0#16, pc := cfg.pcStart, cond := 0#3, run := true, mem := memInit,
    inq := inq, out := [], held := none, env := env, later := later, cfg := cfg }

/-- The machine right after reset, every parameter at its default (R26). MEM_INIT, IN and the environment's moves have no
default in the spec; here nothing is listed, waiting or coming (DESIGN CHOICE, log 2 and log 7). -/
def State.reset : State := State.launch defaultConfig [] [] [] .quiet

end Sys2Proof.Machine
end

