-- ==== Sys2Proof/Machine/Ops.lean ====
section
/-! DEFINITION. The named operations over memory, registers and the character channels (the primitives of R7), and the
three memory accesses of R32, R35 and R36. The machine takes no exception and has no return from one (R115, R119, R121), so
there is no operation for either. -/

namespace Sys2Proof.Machine

/-! Memory: a canonical list of cells. -/

/-- What a cell that is not listed reads as. The spec gives MEM_INIT no default; a list of cells over this value can hold
every MEM_INIT (DESIGN CHOICE, log 2). -/
def Memory.unlisted : Word := 0#16

/-- The listed addresses rise strictly from `lo`, lie below 65536 (R21), and no listed cell holds the unlisted value. -/
def Memory.wfFrom : Nat → Memory → Bool
  | _, [] => true
  | lo, (k, v) :: m => decide (lo ≤ k) && decide (k < 65536) && (v != Memory.unlisted) && Memory.wfFrom (k + 1) m

/-- The canonical form of memory. -/
def Memory.wf (m : Memory) : Bool := Memory.wfFrom 0 m

/-- The content of cell `k`. -/
def Memory.read : Memory → Nat → Word
  | [], _ => Memory.unlisted
  | (k', v) :: m, k => if k = k' then v else Memory.read m k

/-- Lists the cell `k` with the value `v` in its place. -/
def Memory.insert : Memory → Nat → Word → Memory
  | [], k, v => [(k, v)]
  | (k', v') :: m, k, v =>
    if k < k' then (k, v) :: (k', v') :: m
    else if k = k' then (k, v) :: m
    else (k', v') :: Memory.insert m k v

/-- Takes cell `k` off the list. -/
def Memory.erase : Memory → Nat → Memory
  | [], _ => []
  | (k', v') :: m, k => if k = k' then Memory.erase m k else (k', v') :: Memory.erase m k

/-- Cell `k` now holds `v`; the canonical form is kept. -/
def Memory.write (m : Memory) (k : Nat) (v : Word) : Memory :=
  if v = Memory.unlisted then Memory.erase m k else Memory.insert m k v

/-! Registers. -/

/-- `x[r]`. No register is hard-wired (R11). -/
def State.reg (s : State) (r : RegIdx) : Word := s.x[r.toNat]'r.isLt

/-- `x[r] <- v`, which does not touch the condition codes (R7). -/
def State.setReg (s : State) (r : RegIdx) (v : Word) : State :=
  { s with x := s.x.set r.toNat v r.isLt }

/-- `pc <- v` (R7). -/
def State.setPc (s : State) (v : Word) : State := { s with pc := v }

/-- `cond <- c`: the whole of the condition codes is replaced (R7, R16). -/
def State.setCond (s : State) (c : Cond) : State := { s with cond := c }

/-- `run <- 0` (R18). -/
def State.stop (s : State) : State := { s with run := false }

/-- Marks the TRAP routine that the step is inside of, or that none is. -/
def State.setHeld (s : State) (h : Option Held) : State := { s with held := h }

/-! The character channels. -/

/-- `InAvail()` (R22). -/
def State.inAvail (s : State) : Bool := !s.inq.isEmpty

/-- `InTake()`: the oldest character and the state without it; none where `InAvail()` is false (R22). -/
def State.inTake (s : State) : Option (Byte × State) :=
  match s.inq with
  | [] => none
  | c :: rest => some (c, { s with inq := rest })

/-- `OutPut(b)` for each byte in order: the sink always accepts (R24, R105). -/
def State.outPut (s : State) (bs : List Byte) : State := { s with out := s.out ++ bs }

/-! Memory accesses. -/

/-- `zext_8`: bits 15..8 are 0 (R7). -/
def zext8 (c : Byte) : Word := c.zeroExtend 16

/-- `RawRead(a)`: the content of the cell and no side effect (R36). -/
def State.rawRead (s : State) (a : Word) : Word := Memory.read s.mem a.toNat

/-- `MemWrite(a, 1, v)`: a plain store at every address (R35). -/
def State.memWrite (s : State) (a v : Word) : State :=
  { s with mem := Memory.write s.mem a.toNat v }

/-- The value KBSR takes when a poll finds a character (R32, R33). -/
def kbsrReady : Word := 0x8000#16

/-- The value KBSR takes when a poll finds none (R32, R33). -/
def kbsrIdle : Word := 0x0000#16

/-- The keyboard poll of R32 (decisions D6, D7; DEDUCED, log 16). -/
def State.poll (s : State) : State :=
  match s.inTake with
  | none => s.memWrite s.cfg.kbsrAddr kbsrIdle
  | some (c, t) => (t.memWrite s.cfg.kbsrAddr kbsrReady).memWrite s.cfg.kbdrAddr (zext8 c)

/-- The side effect of `MemRead(a, 1)`: a read of KBSR_ADDR polls, no other read does anything (R32). -/
def State.readEffect (s : State) (a : Word) : State :=
  if a = s.cfg.kbsrAddr then s.poll else s

/-- The value of `MemRead(a, 1)`: the cell as the poll leaves it (R32). -/
def State.readValue (s : State) (a : Word) : Word := (s.readEffect a).rawRead a

/-- The fetch: the word `MemRead(pc, 1)` (R37, R141). -/
def State.fetchWord (s : State) : Word := s.readValue s.pc

/-- The state in which the fetched instruction executes: the fetch has polled where it reads KBSR, and `pc` is the
incremented PC, modulo 65536 (R13, R141). -/
def State.afterFetch (s : State) : State := (s.readEffect s.pc).setPc (s.pc + 1#16)

end Sys2Proof.Machine
end

