-- ==== Sys2Proof/Machine/Boundary.lean ====
section
/-! DEFINITION. The block's boundary (R9): reset, memory preload, the arrival of characters, and the output `halted`. The
character output is the field `out`. -/

namespace Sys2Proof.Machine

/-- The reset event: every register takes its reset value and `run` is 1; memory and the two channels are not touched, and an
instruction in progress is abandoned (R26, R135; DEDUCED, log 12). Of a walk without end it abandons, whole laps stand in OUT
(DESIGN CHOICE, log 21). -/
def State.applyReset (s : State) : State :=
  { s with x := Vector.replicate 8 0#16, pc := s.cfg.pcStart, cond := 0#3, run := true, held := none }

/-- The environment appends characters to the back of the input queue (R23). -/
def State.arrive (s : State) (cs : List Byte) : State := { s with inq := s.inq ++ cs }

/-- The environment's move once its listed moves are used up: nothing, or the next arrivals of an endless schedule
(R23, U6; DESIGN CHOICE, log 7 and log 22). -/
def State.laterMove (s : State) : State :=
  match s.later with
  | .quiet => s
  | .endless k n => { s with later := .endless k (n + 1) }.arrive (Config.freeArrivals k n)

/-- The environment's coming move before a step: the first of the list, or what comes after the list
(R23, R135; DESIGN CHOICE, log 7). -/
def State.envMove (s : State) : State :=
  match s.env with
  | [] => s.laterMove
  | .arrive cs :: rest => { s with env := rest }.arrive cs
  | .reset :: rest => { s with env := rest }.applyReset

/-- Whether the environment's coming move is a reset. -/
def State.resetNext (s : State) : Bool :=
  match s.env with
  | .reset :: _ => true
  | .arrive _ :: _ => false
  | [] => false

/-- The output `halted`: the complement of `run` (R9, R18). -/
def State.halted (s : State) : Bool := !s.run

/-- Before the run starts the host sets cells of memory, in the order listed (R9, R138). -/
def State.preload (s : State) : List (Word × Word) → State
  | [] => s
  | (a, v) :: rest => State.preload (s.memWrite a v) rest

/-- The environment's moves from its first move that is not a reset on. -/
def skipResets : List EnvMove → List EnvMove
  | [] => []
  | .reset :: rest => skipResets rest
  | .arrive cs :: rest => .arrive cs :: rest

/-- The word `w` stands in the cell at `pc` and the engine is running at an instruction boundary with no reset next, so that the
next step fetches it. (Where `pc` is KBSR_ADDR no word can be placed: that fetch polls, R37.) DESIGN CHOICE, log 11. -/
def State.placeWord (s : State) (w : Word) : State :=
  { s.memWrite s.pc w with run := true, held := none, env := skipResets s.env }

end Sys2Proof.Machine
end

