-- ==== Sys2Proof/Syntax.lean ====
section
/-! DEFINITION. The instructions of lc3-vm CORE: one constructor for each row of spec/opcode_table.json (R57, R58).
The six TRAP services and RET are rows of the table that refine the rows TRAP and JMP, and have constructors of their own. -/

namespace Sys2Proof

/-- One constructor per row of the opcode table, with the operand fields of R56. -/
inductive Instr where
  /-- BR (R81): `nzp` is `ir[11:9]`. -/
  | br (nzp : Cond) (off9 : BitVec 9)
  /-- ADD, register form (R76). -/
  | addReg (dr sr1 sr2 : RegIdx)
  /-- ADD, immediate form (R76). -/
  | addImm (dr sr1 : RegIdx) (imm5 : BitVec 5)
  /-- LD (R86). -/
  | ld (dr : RegIdx) (off9 : BitVec 9)
  /-- ST (R90). -/
  | st (sr : RegIdx) (off9 : BitVec 9)
  /-- JSR (R83). -/
  | jsr (off11 : BitVec 11)
  /-- JSRR (R84). -/
  | jsrr (baseR : RegIdx)
  /-- AND, register form (R77). -/
  | andReg (dr sr1 sr2 : RegIdx)
  /-- AND, immediate form (R77). -/
  | andImm (dr sr1 : RegIdx) (imm5 : BitVec 5)
  /-- LDR (R88). -/
  | ldr (dr baseR : RegIdx) (off6 : BitVec 6)
  /-- STR (R92). -/
  | str (sr baseR : RegIdx) (off6 : BitVec 6)
  /-- RTI, a reserved opcode (R110). -/
  | rti
  /-- NOT (R78). -/
  | not (dr sr : RegIdx)
  /-- LDI (R87). -/
  | ldi (dr : RegIdx) (off9 : BitVec 9)
  /-- STI (R91). -/
  | sti (sr : RegIdx) (off9 : BitVec 9)
  /-- JMP with a base register other than R7 (R82). -/
  | jmp (baseR : RegIdx)
  /-- RES, a reserved opcode (R111). -/
  | res
  /-- LEA (R89). -/
  | lea (dr : RegIdx) (off9 : BitVec 9)
  /-- TRAP with a vector that selects none of the six services (R95, R103). -/
  | trap (vect : BitVec 8)
  /-- TRAP x20 (R97). -/
  | trapGetc
  /-- TRAP x21 (R98). -/
  | trapOut
  /-- TRAP x22 (R99). -/
  | trapPuts
  /-- TRAP x23 (R100). -/
  | trapIn
  /-- TRAP x24 (R101). -/
  | trapPutsp
  /-- TRAP x25 (R102). -/
  | trapHalt
  /-- RET: JMP with base register R7 (R67, R82). -/
  | ret
  deriving DecidableEq, Repr

end Sys2Proof
end

