-- ==== Sys2Proof/WellFormed.lean ====
section
/-! DEFINITION. Which terms of `Instr` stand for an encoding: the terms the decoder can give.
Every operand field has its exact width in its type, so the two checks left are the ones that keep a row of the table apart
from the rows that refine it. -/

namespace Sys2Proof

/-- The vectors 0x20 to 0x25, which select the six services (R95). -/
def isServiceVector (v : BitVec 8) : Bool :=
  decide (0x20#8 ≤ v) && decide (v ≤ 0x25#8)

/-- `jmp` with base R7 is written `ret` (R67), and `trap` with a service vector is written as that service (R95).
Every other term is well formed (R63: no encoding is illegal). DESIGN CHOICE, log 19. -/
def Instr.wf : Instr → Bool
  | .jmp baseR => baseR != 7#3
  | .trap vect => !isServiceVector vect
  | .br _ _ => true
  | .addReg _ _ _ => true
  | .addImm _ _ _ => true
  | .ld _ _ => true
  | .st _ _ => true
  | .jsr _ => true
  | .jsrr _ => true
  | .andReg _ _ _ => true
  | .andImm _ _ _ => true
  | .ldr _ _ _ => true
  | .str _ _ _ => true
  | .rti => true
  | .not _ _ => true
  | .ldi _ _ => true
  | .sti _ _ => true
  | .res => true
  | .lea _ _ => true
  | .trapGetc => true
  | .trapOut => true
  | .trapPuts => true
  | .trapIn => true
  | .trapPutsp => true
  | .trapHalt => true
  | .ret => true

end Sys2Proof
end

