-- ==== Sys2Proof/Decode.lean ====
section
/-! DEFINITION. The decoder (R64), total on every 16-bit word (R63), the encoder written from the same formats (R58, R68),
the ignored bits (R61) and the fixed bits of each row. An instruction is one 16-bit cell (R55), so there is no byte order. -/

namespace Sys2Proof

/-! The fields of R56. -/

/-- OP, `ir[15:12]`. -/
def opField (ir : Word) : BitVec 4 := ir.extractLsb' 12 4

/-- DR, and SR of the stores, `ir[11:9]`; the n, z, p bits of BR stand in the same place. -/
def drField (ir : Word) : BitVec 3 := ir.extractLsb' 9 3

/-- SR1, SR of NOT, and BaseR, `ir[8:6]`. -/
def sr1Field (ir : Word) : BitVec 3 := ir.extractLsb' 6 3

/-- SR2, `ir[2:0]`. -/
def sr2Field (ir : Word) : BitVec 3 := ir.extractLsb' 0 3

/-- F, the operand mode of ADD and AND, `ir[5]`. -/
def modeBit (ir : Word) : BitVec 1 := ir.extractLsb' 5 1

/-- L, the mode of opcode 0100, `ir[11]`. -/
def linkBit (ir : Word) : BitVec 1 := ir.extractLsb' 11 1

/-- imm5, `ir[4:0]`. -/
def imm5Field (ir : Word) : BitVec 5 := ir.extractLsb' 0 5

/-- offset6, `ir[5:0]`. -/
def off6Field (ir : Word) : BitVec 6 := ir.extractLsb' 0 6

/-- PCoffset9, `ir[8:0]`. -/
def off9Field (ir : Word) : BitVec 9 := ir.extractLsb' 0 9

/-- PCoffset11, `ir[10:0]`. -/
def off11Field (ir : Word) : BitVec 11 := ir.extractLsb' 0 11

/-- trapvect8, `ir[7:0]`. -/
def vectField (ir : Word) : BitVec 8 := ir.extractLsb' 0 8

/-- JMP and its refinement RET (R67, R82). -/
def decodeJmp (baseR : RegIdx) : Instr :=
  if baseR = 7#3 then .ret else .jmp baseR

/-- TRAP and the six services that refine it (R95). -/
def decodeTrap (vect : BitVec 8) : Instr :=
  if vect = 0x20#8 then .trapGetc
  else if vect = 0x21#8 then .trapOut
  else if vect = 0x22#8 then .trapPuts
  else if vect = 0x23#8 then .trapIn
  else if vect = 0x24#8 then .trapPutsp
  else if vect = 0x25#8 then .trapHalt
  else .trap vect

/-- The decoding algorithm of R64. It never fails: every word selects exactly one row (R63). -/
def decode (ir : Word) : Instr :=
  match opField ir with
  | 0x0#4 => .br (drField ir) (off9Field ir)
  | 0x1#4 =>
    if modeBit ir = 0#1 then .addReg (drField ir) (sr1Field ir) (sr2Field ir)
    else .addImm (drField ir) (sr1Field ir) (imm5Field ir)
  | 0x2#4 => .ld (drField ir) (off9Field ir)
  | 0x3#4 => .st (drField ir) (off9Field ir)
  | 0x4#4 => if linkBit ir = 1#1 then .jsr (off11Field ir) else .jsrr (sr1Field ir)
  | 0x5#4 =>
    if modeBit ir = 0#1 then .andReg (drField ir) (sr1Field ir) (sr2Field ir)
    else .andImm (drField ir) (sr1Field ir) (imm5Field ir)
  | 0x6#4 => .ldr (drField ir) (sr1Field ir) (off6Field ir)
  | 0x7#4 => .str (drField ir) (sr1Field ir) (off6Field ir)
  | 0x8#4 => .rti
  | 0x9#4 => .not (drField ir) (sr1Field ir)
  | 0xA#4 => .ldi (drField ir) (off9Field ir)
  | 0xB#4 => .sti (drField ir) (off9Field ir)
  | 0xC#4 => decodeJmp (sr1Field ir)
  | 0xD#4 => .res
  | 0xE#4 => .lea (drField ir) (off9Field ir)
  | _ => decodeTrap (vectField ir)

/-- The canonical word of an instruction: the formats of R58 with the ignored bits filled as R68 fills them
(ones in bits 5:0 of NOT, zeros elsewhere). PRESUMED with the spec (log 4): all opcode numbers but that of ADD. -/
def encode : Instr → Word
  | .br nzp off9 => 0x0#4 ++ nzp ++ off9
  | .addReg dr sr1 sr2 => 0x1#4 ++ dr ++ sr1 ++ 0#1 ++ 0#2 ++ sr2
  | .addImm dr sr1 imm5 => 0x1#4 ++ dr ++ sr1 ++ 1#1 ++ imm5
  | .ld dr off9 => 0x2#4 ++ dr ++ off9
  | .st sr off9 => 0x3#4 ++ sr ++ off9
  | .jsr off11 => 0x4#4 ++ 1#1 ++ off11
  | .jsrr baseR => 0x4#4 ++ 0#1 ++ 0#2 ++ baseR ++ 0#6
  | .andReg dr sr1 sr2 => 0x5#4 ++ dr ++ sr1 ++ 0#1 ++ 0#2 ++ sr2
  | .andImm dr sr1 imm5 => 0x5#4 ++ dr ++ sr1 ++ 1#1 ++ imm5
  | .ldr dr baseR off6 => 0x6#4 ++ dr ++ baseR ++ off6
  | .str sr baseR off6 => 0x7#4 ++ sr ++ baseR ++ off6
  | .rti => 0x8#4 ++ 0#12
  | .not dr sr => 0x9#4 ++ dr ++ sr ++ 0x3F#6
  | .ldi dr off9 => 0xA#4 ++ dr ++ off9
  | .sti sr off9 => 0xB#4 ++ sr ++ off9
  | .jmp baseR => 0xC#4 ++ 0#3 ++ baseR ++ 0#6
  | .res => 0xD#4 ++ 0#12
  | .lea dr off9 => 0xE#4 ++ dr ++ off9
  | .trap vect => 0xF#4 ++ 0#4 ++ vect
  | .trapGetc => 0xF020#16
  | .trapOut => 0xF021#16
  | .trapPuts => 0xF022#16
  | .trapIn => 0xF023#16
  | .trapPutsp => 0xF024#16
  | .trapHalt => 0xF025#16
  | .ret => 0xC1C0#16

/-- The opcode map of R57. -/
def Instr.opcode : Instr → BitVec 4
  | .br _ _ => 0x0#4
  | .addReg _ _ _ => 0x1#4
  | .addImm _ _ _ => 0x1#4
  | .ld _ _ => 0x2#4
  | .st _ _ => 0x3#4
  | .jsr _ => 0x4#4
  | .jsrr _ => 0x4#4
  | .andReg _ _ _ => 0x5#4
  | .andImm _ _ _ => 0x5#4
  | .ldr _ _ _ => 0x6#4
  | .str _ _ _ => 0x7#4
  | .rti => 0x8#4
  | .not _ _ => 0x9#4
  | .ldi _ _ => 0xA#4
  | .sti _ _ => 0xB#4
  | .jmp _ => 0xC#4
  | .ret => 0xC#4
  | .res => 0xD#4
  | .lea _ _ => 0xE#4
  | .trap _ => 0xF#4
  | .trapGetc => 0xF#4
  | .trapOut => 0xF#4
  | .trapPuts => 0xF#4
  | .trapIn => 0xF#4
  | .trapPutsp => 0xF#4
  | .trapHalt => 0xF#4

/-- The bits of a row that take no part in decoding or execution (R61), as a mask of the instruction word. -/
def Instr.ignoredBits : Instr → Word
  | .addReg _ _ _ => 0x0018#16
  | .andReg _ _ _ => 0x0018#16
  | .not _ _ => 0x003F#16
  | .jmp _ => 0x0E3F#16
  | .ret => 0x0E3F#16
  | .jsrr _ => 0x063F#16
  | .trap _ => 0x0F00#16
  | .trapGetc => 0x0F00#16
  | .trapOut => 0x0F00#16
  | .trapPuts => 0x0F00#16
  | .trapIn => 0x0F00#16
  | .trapPutsp => 0x0F00#16
  | .trapHalt => 0x0F00#16
  | .rti => 0x0FFF#16
  | .res => 0x0FFF#16
  | .br _ _ => 0#16
  | .addImm _ _ _ => 0#16
  | .ld _ _ => 0#16
  | .st _ _ => 0#16
  | .jsr _ => 0#16
  | .andImm _ _ _ => 0#16
  | .ldr _ _ _ => 0#16
  | .str _ _ _ => 0#16
  | .ldi _ _ => 0#16
  | .sti _ _ => 0#16
  | .lea _ _ => 0#16

/-- The mask of a row of the opcode table: the bits it fixes. -/
def Instr.rowMask : Instr → Word
  | .addReg _ _ _ => 0xF020#16
  | .addImm _ _ _ => 0xF020#16
  | .andReg _ _ _ => 0xF020#16
  | .andImm _ _ _ => 0xF020#16
  | .jsr _ => 0xF800#16
  | .jsrr _ => 0xF800#16
  | .ret => 0xF1C0#16
  | .trapGetc => 0xF0FF#16
  | .trapOut => 0xF0FF#16
  | .trapPuts => 0xF0FF#16
  | .trapIn => 0xF0FF#16
  | .trapPutsp => 0xF0FF#16
  | .trapHalt => 0xF0FF#16
  | .br _ _ => 0xF000#16
  | .ld _ _ => 0xF000#16
  | .st _ _ => 0xF000#16
  | .ldr _ _ _ => 0xF000#16
  | .str _ _ _ => 0xF000#16
  | .rti => 0xF000#16
  | .not _ _ => 0xF000#16
  | .ldi _ _ => 0xF000#16
  | .sti _ _ => 0xF000#16
  | .jmp _ => 0xF000#16
  | .res => 0xF000#16
  | .lea _ _ => 0xF000#16
  | .trap _ => 0xF000#16

/-- The value the fixed bits of a row have (its "match" in the opcode table). -/
def Instr.rowMatch : Instr → Word
  | .br _ _ => 0x0000#16
  | .addReg _ _ _ => 0x1000#16
  | .addImm _ _ _ => 0x1020#16
  | .ld _ _ => 0x2000#16
  | .st _ _ => 0x3000#16
  | .jsr _ => 0x4800#16
  | .jsrr _ => 0x4000#16
  | .andReg _ _ _ => 0x5000#16
  | .andImm _ _ _ => 0x5020#16
  | .ldr _ _ _ => 0x6000#16
  | .str _ _ _ => 0x7000#16
  | .rti => 0x8000#16
  | .not _ _ => 0x9000#16
  | .ldi _ _ => 0xA000#16
  | .sti _ _ => 0xB000#16
  | .jmp _ => 0xC000#16
  | .res => 0xD000#16
  | .lea _ _ => 0xE000#16
  | .trap _ => 0xF000#16
  | .trapGetc => 0xF020#16
  | .trapOut => 0xF021#16
  | .trapPuts => 0xF022#16
  | .trapIn => 0xF023#16
  | .trapPutsp => 0xF024#16
  | .trapHalt => 0xF025#16
  | .ret => 0xC1C0#16

/-- What the decoder reads from an instruction whose bits are `w`. Every row of the table has 16 bits (R55): one cell, the
word itself. Bits above `nbits` are zero; a number that is no 16-bit word stands for no instruction. -/
def decodeTableWord (nbits w : Nat) : Option Instr :=
  if nbits ≤ 16 ∧ w < 65536 then some (decode (BitVec.ofNat 16 w)) else none

end Sys2Proof
end

