-- ==== Sys2Proof/Machine/Operands.lean ====
section
/-! DEFINITION. The operand forms: the sign extension of R7 and R60, the two bytes of a cell, and the effective addresses of R80 and R85. In all of them `pc`
is the incremented PC (R13), and sums are modulo 65536 (R31). -/

namespace Sys2Proof.Machine

/-- `sext_N`: bit N-1 fills all higher bits (R7). N is 5, 6, 9 or 11. -/
def sext {n : Nat} (v : BitVec n) : Word := v.signExtend 16

/-- Bits 7..0 of a cell: PUTSP's first character (R39, R101). -/
def lowByte (w : Word) : Byte := w.extractLsb' 0 8

/-- Bits 15..8 of a cell: PUTSP's second character (R39, R101). -/
def highByte (w : Word) : Byte := w.extractLsb' 8 8

/-- The PC-relative address `pc + sext_N(offset)` (R80, R85). -/
def State.pcRel {n : Nat} (s : State) (off : BitVec n) : Word := s.pc + sext off

/-- The base + offset address `x[BaseR] + sext_6(offset6)` (R85). -/
def State.baseOff (s : State) (baseR : RegIdx) (off6 : BitVec 6) : Word := s.reg baseR + sext off6

end Sys2Proof.Machine
end

