-- ==== Sys2Proof/Machine/Control.lean ====
section
/-! DEFINITION. The control instructions BR, JMP, RET, JSR and JSRR (R80 to R84). `pc` on entry is the incremented PC. -/

namespace Sys2Proof.Machine

/-- BR: taken when the n, z, p field and `cond` share a set bit (R81). -/
def execBr (nzp : Cond) (off9 : BitVec 9) (s : State) : Host.Outcome State Fault Refusal :=
  .next (if nzp &&& s.cond ≠ 0#3 then s.setPc (s.pcRel off9) else s)

/-- `pc <- x[BaseR]` (R82). -/
def State.jumpReg (s : State) (baseR : RegIdx) : State := s.setPc (s.reg baseR)

/-- JMP (R82). -/
def execJmp (baseR : RegIdx) (s : State) : Host.Outcome State Fault Refusal :=
  .next (s.jumpReg baseR)

/-- RET is JMP with base register R7; nothing is restored or popped (R67, R82). -/
def execRet (s : State) : Host.Outcome State Fault Refusal :=
  .next (s.jumpReg 7#3)

/-- The link `x[7] <- pc`, the incremented PC, without the flag updater (R17, R83, R84). -/
def State.link (s : State) : State := s.setReg 7#3 s.pc

/-- JSR: link, then the PC-relative target (R83). -/
def execJsr (off11 : BitVec 11) (s : State) : Host.Outcome State Fault Refusal :=
  .next (s.link.setPc (s.pcRel off11))

/-- JSRR: link first, and BaseR is read after the link write, so JSRR R7 falls through
(R84, decision D21; DEDUCED, log 14). -/
def execJsrr (baseR : RegIdx) (s : State) : Host.Outcome State Fault Refusal :=
  .next (s.link.jumpReg baseR)

end Sys2Proof.Machine
end

