-- ==== Sys2Proof/Machine/Flags.lean ====
section
/-! DEFINITION. The condition codes and the flag updater (R15, R16). There is no carry and no overflow flag (R75, R79). -/

namespace Sys2Proof.Machine

/-- NEGATIVE. The three values are the spec's choice (R15, log 4). -/
def condN : Cond := 0b100#3

/-- ZERO. -/
def condZ : Cond := 0b010#3

/-- POSITIVE. -/
def condP : Cond := 0b001#3

/-- The condition codes of a 16-bit value (R16). -/
def condOf (v : Word) : Cond :=
  if v.msb then condN else if v = 0#16 then condZ else condP

/-- The flag updater `setcc(r)`: it reads `x[r]` after the write and replaces the whole of `cond` (R16). -/
def State.setcc (s : State) (r : RegIdx) : State := s.setCond (condOf (s.reg r))

/-- `x[DR] <- v` and then `setcc(DR)`, as the seven instructions of R17 end. -/
def State.writeResult (s : State) (dr : RegIdx) (v : Word) : State := (s.setReg dr v).setcc dr

end Sys2Proof.Machine
end

