-- ==== Sys2Proof/Machine/LoadStore.lean ====
section
/-! DEFINITION. The loads LD, LDI, LDR, the address computation LEA, and the stores ST, STI, STR (R85 to R92).
Every read of a load and the pointer read of STI is a `MemRead`, which polls at KBSR_ADDR (R37). -/

namespace Sys2Proof.Machine

/-- `x[DR] <- MemRead(ea, 1)` and `setcc(DR)` (R86, R87, R88). -/
def State.load (s : State) (dr : RegIdx) (ea : Word) : State :=
  (s.readEffect ea).writeResult dr (s.readValue ea)

/-- LD (R86). -/
def execLd (dr : RegIdx) (off9 : BitVec 9) (s : State) : Host.Outcome State Fault Refusal :=
  .next (s.load dr (s.pcRel off9))

/-- LDI: the pointer is read first, then the operand; either read can poll (R87). -/
def execLdi (dr : RegIdx) (off9 : BitVec 9) (s : State) : Host.Outcome State Fault Refusal :=
  .next ((s.readEffect (s.pcRel off9)).load dr (s.readValue (s.pcRel off9)))

/-- LDR: the base is read before DR is written (R88). -/
def execLdr (dr baseR : RegIdx) (off6 : BitVec 6) (s : State) : Host.Outcome State Fault Refusal :=
  .next (s.load dr (s.baseOff baseR off6))

/-- LEA: the address itself, no memory access; it sets the flags (R89). -/
def execLea (dr : RegIdx) (off9 : BitVec 9) (s : State) : Host.Outcome State Fault Refusal :=
  .next (s.writeResult dr (s.pcRel off9))

/-- ST (R90). -/
def execSt (sr : RegIdx) (off9 : BitVec 9) (s : State) : Host.Outcome State Fault Refusal :=
  .next (s.memWrite (s.pcRel off9) (s.reg sr))

/-- STI: the pointer is read, by a `MemRead` that can poll, before the write (R91). -/
def execSti (sr : RegIdx) (off9 : BitVec 9) (s : State) : Host.Outcome State Fault Refusal :=
  .next ((s.readEffect (s.pcRel off9)).memWrite (s.readValue (s.pcRel off9)) (s.reg sr))

/-- STR (R92). -/
def execStr (sr baseR : RegIdx) (off6 : BitVec 6) (s : State) : Host.Outcome State Fault Refusal :=
  .next (s.memWrite (s.baseOff baseR off6) (s.reg sr))

end Sys2Proof.Machine
end

