-- ==== Sys2Proof/Machine/Reserved.lean ====
section
/-! DEFINITION. The reserved opcodes RTI and RES: no operation (R110 to R112). -/

namespace Sys2Proof.Machine

/-- RTI: nothing; it restores nothing and is not privileged (R110; DEDUCED, log 13). -/
def execRti (s : State) : Host.Outcome State Fault Refusal := .next s

/-- RES: nothing (R111; DEDUCED, log 13). -/
def execRes (s : State) : Host.Outcome State Fault Refusal := .next s

end Sys2Proof.Machine
end

