-- ==== Sys2Proof/Machine/Trap.lean ====
section
/-! DEFINITION. TRAP and the six service routines, which are hardware behaviour (R95 to R105). No routine writes R7, `cond` or
memory, and `pc` stays at the incremented PC (R96, R119). A routine that cannot finish leaves `held` set: GETC and IN while the
input queue is empty, PUTS and PUTSP while no cell of memory is zero (R104). -/

namespace Sys2Proof.Machine

/-- GETC from its wait on: R0 is the oldest character, zero-extended; with no character the step is held (R97, R104). -/
def State.getc (s : State) : State :=
  match s.inTake with
  | none => s.setHeld (some .getc)
  | some (c, t) => (t.setReg 0#3 (zext8 c)).setHeld none

/-- IN from its wait on: as GETC, and the character is echoed (R100, R104). -/
def State.finishIn (s : State) : State :=
  match s.inTake with
  | none => s.setHeld (some .inp)
  | some (c, t) => ((t.setReg 0#3 (zext8 c)).outPut [c]).setHeld none

/-- The walk of PUTS and PUTSP over at most `fuel` cells from `a` on, by `RawRead`, the pointer wrapping modulo 65536: the
bytes of the cells before the first zero cell, and whether a zero cell was reached (R36, R99, R101, decision D9; DEDUCED, log 15). -/
def walkString (chars : Word → List Byte) (m : Memory) : Nat → Word → List Byte × Bool
  | 0, _ => ([], false)
  | fuel + 1, a =>
    if Memory.read m a.toNat = 0#16 then ([], true)
    else
      let r := walkString chars m fuel (a + 1#16)
      (chars (Memory.read m a.toNat) ++ r.1, r.2)

/-- One lap of a string walk from R0 over the whole of memory. Where no cell is zero the lap ends where it began, and the routine
is held: the output is that lap for ever (R104, DESIGN CHOICE, log 6). A reset that abandons the walk falls between two laps, so whole laps
stand in OUT then; the spec fixes no point in the walk (R135, U11; DESIGN CHOICE, log 21). -/
def State.lap (s : State) (chars : Word → List Byte) (h : Held) : State :=
  let r := walkString chars s.mem 65536 (s.reg 0#3)
  (s.outPut r.1).setHeld (if r.2 then none else some h)

/-- What PUTS outputs for a cell: its low 8 bits (R99). -/
def putsChars (w : Word) : List Byte := [lowByte w]

/-- What PUTSP outputs for a cell: the low byte always, then the high byte if it is not zero (R101). -/
def putspChars (w : Word) : List Byte :=
  if highByte w = 0#8 then [lowByte w] else [lowByte w, highByte w]

/-- PUTS (R99). -/
def State.puts (s : State) : State := s.lap putsChars .puts

/-- PUTSP (R101). -/
def State.putsp (s : State) : State := s.lap putspChars .putsp

/-- OUT: the low 8 bits of R0 (R98). -/
def State.outChar (s : State) : State := s.outPut [lowByte (s.reg 0#3)]

/-- IN: the prompt, then the wait (R100). -/
def State.promptIn (s : State) : State := (s.outPut s.cfg.inPrompt).finishIn

/-- HALT: the notice, then the run latch is cleared (R102). -/
def State.halt (s : State) : State := (s.outPut s.cfg.haltNotice).stop

/-- TRAP x20 (R97). -/
def execTrapGetc (s : State) : Host.Outcome State Fault Refusal := .next s.getc

/-- TRAP x21 (R98). -/
def execTrapOut (s : State) : Host.Outcome State Fault Refusal := .next s.outChar

/-- TRAP x22 (R99). -/
def execTrapPuts (s : State) : Host.Outcome State Fault Refusal := .next s.puts

/-- TRAP x23 (R100). -/
def execTrapIn (s : State) : Host.Outcome State Fault Refusal := .next s.promptIn

/-- TRAP x24 (R101). -/
def execTrapPutsp (s : State) : Host.Outcome State Fault Refusal := .next s.putsp

/-- TRAP x25 (R102). -/
def execTrapHalt (s : State) : Host.Outcome State Fault Refusal := .next s.halt

/-- TRAP: the dispatch of R95 over all 256 vectors. A vector outside 0x20..0x25 does nothing
(R103, decision D13; DEDUCED, log 13). -/
def execTrap (vect : BitVec 8) (s : State) : Host.Outcome State Fault Refusal :=
  .next (
    if vect = 0x20#8 then s.getc
    else if vect = 0x21#8 then s.outChar
    else if vect = 0x22#8 then s.puts
    else if vect = 0x23#8 then s.promptIn
    else if vect = 0x24#8 then s.putsp
    else if vect = 0x25#8 then s.halt
    else s)

/-- A step that is inside a routine goes on with it: GETC and IN look at the queue again (IN does not repeat its prompt), and a
walk that found no zero cell walks another lap (R104). -/
def State.resume (s : State) : Held → State
  | .getc => s.getc
  | .inp => s.finishIn
  | .puts => s.puts
  | .putsp => s.putsp

end Sys2Proof.Machine
end

