-- ==== Sys2Proof/Machine/RunLoop.lean ====
section
/-! DEFINITION. The run loop (R141, R142): what one step of the model does, the environment's move included. -/

namespace Sys2Proof.Machine

/-- One instruction from its fetch on: fetch, increment, decode, execute (R118, R141). -/
def State.runInstr (s : State) : Host.Outcome State Fault Refusal :=
  exec (decode s.fetchWord) s.afterFetch

/-- The engine's step. A halted engine performs none, and all its state is kept (R18, R129; DESIGN CHOICE, log 8); a held
routine goes on (R104); otherwise an instruction runs. -/
def State.engineStep (s : State) : Host.Outcome State Fault Refusal :=
  if s.run then
    match s.held with
    | none => s.runInstr
    | some h => .next (s.resume h)
  else .next s

/-- The environment's coming move, then the engine's step. While reset is applied the engine performs no step (R23, R135). -/
def State.cycle (s : State) : Host.Outcome State Fault Refusal :=
  if s.resetNext then .next s.envMove else s.envMove.engineStep

/-- A configuration with KBSR_ADDR = KBDR_ADDR is rejected (R34, decision D31; DEDUCED, log 9). -/
def State.checkedCycle (s : State) : Host.Outcome State Fault Refusal :=
  if s.cfg.valid then s.cycle else .refused .invalidConfig

end Sys2Proof.Machine
end

