-- ==== Sys2Proof/Machine/Step.lean ====
section
/-! DEFINITION. The step of the machine (R141), and the host's way to put one instruction where the next step fetches. -/

namespace Sys2Proof.Machine

/-- One step (R8, R141): see `State.checkedCycle`. No time is modelled (R153; DEDUCED, log 18). -/
def step (s : State) : Host.Outcome State Fault Refusal := s.checkedCycle

/-- `s` with the instruction whose bits are `w` in the cell the next step fetches. Every instruction is one 16-bit cell (R55), so
the bits above `nbits`, which are zero, need nothing of their own. -/
def State.withFetchWord (s : State) (_nbits w : Nat) : State := s.placeWord (BitVec.ofNat 16 w)

end Sys2Proof.Machine
end

