-- ==== Sys2Proof/Safety.lean ====
section
/-! DEFINITION. The terms in which claims are stated: the invariant of a run, when a step fetches, what an instruction leaves
unchanged, and the tables of R12 and R17 as functions of the instruction. -/

namespace Sys2Proof.Machine

/-- The values `cond` can have: none after reset, then exactly one of N, Z, P (R15, R26, R27). -/
def condLegal (c : Cond) : Bool := c == 0#3 || c == condN || c == condZ || c == condP

/-- Exactly one of N, Z, P is set (R16, R27). -/
def condOneHot (c : Cond) : Bool := c == condN || c == condZ || c == condP

/-- The invariant of every run: memory keeps its canonical form, the configuration is one the model accepts (R34), and the
condition codes are legal (R27). -/
abbrev State.Inv (s : State) : Prop :=
  Memory.wf s.mem = true ∧ s.cfg.valid = true ∧ condLegal s.cond = true

/-- The next step fetches an instruction: the configuration is accepted, the engine runs, it is at an instruction boundary and
the environment does not apply reset (R129, R141). -/
abbrev State.Fetches (s : State) : Prop :=
  s.cfg.valid = true ∧ s.run = true ∧ s.held = none ∧ s.resetNext = false

/-! Frames: what `t` has in common with `s`. -/

/-- Every general register. -/
def SameRegs (s t : State) : Prop := ∀ r : RegIdx, t.reg r = s.reg r

/-- Every general register but `d`. -/
def SameRegsBut (d : RegIdx) (s t : State) : Prop := ∀ r : RegIdx, r ≠ d → t.reg r = s.reg r

/-- Every cell of memory. -/
def SameMem (s t : State) : Prop := ∀ a : Word, t.rawRead a = s.rawRead a

/-- Every cell of memory but the cell `d`. -/
def SameMemBut (d : Word) (s t : State) : Prop := ∀ a : Word, a ≠ d → t.rawRead a = s.rawRead a

/-- The two character channels. -/
def SameIO (s t : State) : Prop := t.inq = s.inq ∧ t.out = s.out

/-- The run latch, the parameters, and the model's own three fields. -/
def SameControl (s t : State) : Prop :=
  t.run = s.run ∧ t.held = s.held ∧ t.env = s.env ∧ t.later = s.later ∧ t.cfg = s.cfg

/-- The whole effect of an instruction that ends in `x[DR] <- v; setcc(DR)` and does nothing else. -/
def WritesResult (dr : RegIdx) (v : Word) (s t : State) : Prop :=
  t.reg dr = v ∧ t.cond = condOf v ∧ SameRegsBut dr s t ∧ t.pc = s.pc ∧ SameMem s t ∧ SameIO s t ∧ SameControl s t

/-- The whole effect of an instruction that stores `v` in cell `a` and does nothing else. -/
def StoresAt (a v : Word) (s t : State) : Prop :=
  t.rawRead a = v ∧ SameMemBut a s t ∧ SameRegs s t ∧ t.cond = s.cond ∧ t.pc = s.pc ∧ SameIO s t ∧ SameControl s t

/-- The whole effect of an instruction that goes to `target` and does nothing else. -/
def GoesTo (target : Word) (s t : State) : Prop :=
  t.pc = target ∧ SameRegs s t ∧ t.cond = s.cond ∧ SameMem s t ∧ SameIO s t ∧ SameControl s t

/-- The whole effect of a call to `target`: as `GoesTo`, and R7 is `s.pc`, the return address. -/
def CallsTo (target : Word) (s t : State) : Prop :=
  t.pc = target ∧ t.reg 7#3 = s.pc ∧ SameRegsBut 7#3 s t ∧ t.cond = s.cond ∧ SameMem s t ∧ SameIO s t ∧ SameControl s t

/-- What every TRAP routine leaves unchanged (R96): `pc`, `cond`, memory, R1 to R7, the environment's moves and the parameters. -/
def TrapFrame (s t : State) : Prop :=
  t.pc = s.pc ∧ t.cond = s.cond ∧ SameMem s t ∧ SameRegsBut 0#3 s t ∧ t.env = s.env ∧ t.later = s.later ∧ t.cfg = s.cfg

/-- The cells from `a` on hold the string `ws` of cells that are not zero, and then a zero cell; addresses wrap (R99). -/
def StringAt (s : State) : Word → List Word → Prop
  | a, [] => s.rawRead a = 0#16
  | a, w :: ws => s.rawRead a = w ∧ w ≠ 0#16 ∧ StringAt s (a + 1#16) ws

/-- No cell of memory is zero (R104). -/
def NoZeroCell (s : State) : Prop := ∀ a : Word, s.rawRead a ≠ 0#16

end Sys2Proof.Machine

namespace Sys2Proof

/-! The tables of R12, R17 and R37. -/

/-- The register an instruction writes and then gives to the flag updater: one for each of the seven instructions of R17. -/
def Instr.flagReg : Instr → Option RegIdx
  | .addReg dr _ _ => some dr
  | .addImm dr _ _ => some dr
  | .andReg dr _ _ => some dr
  | .andImm dr _ _ => some dr
  | .not dr _ => some dr
  | .ld dr _ => some dr
  | .ldi dr _ => some dr
  | .ldr dr _ _ => some dr
  | .lea dr _ => some dr
  | .br _ _ => none
  | .st _ _ => none
  | .jsr _ => none
  | .jsrr _ => none
  | .str _ _ _ => none
  | .rti => none
  | .sti _ _ => none
  | .jmp _ => none
  | .res => none
  | .trap _ => none
  | .trapGetc => none
  | .trapOut => none
  | .trapPuts => none
  | .trapIn => none
  | .trapPutsp => none
  | .trapHalt => none
  | .ret => none

/-- The general registers an instruction writes (R12). -/
def Instr.writes : Instr → List RegIdx
  | .addReg dr _ _ => [dr]
  | .addImm dr _ _ => [dr]
  | .andReg dr _ _ => [dr]
  | .andImm dr _ _ => [dr]
  | .not dr _ => [dr]
  | .ld dr _ => [dr]
  | .ldi dr _ => [dr]
  | .ldr dr _ _ => [dr]
  | .lea dr _ => [dr]
  | .jsr _ => [7#3]
  | .jsrr _ => [7#3]
  | .trapGetc => [0#3]
  | .trapIn => [0#3]
  | .trap v => if v = 0x20#8 ∨ v = 0x23#8 then [0#3] else []
  | .br _ _ => []
  | .st _ _ => []
  | .str _ _ _ => []
  | .rti => []
  | .sti _ _ => []
  | .jmp _ => []
  | .res => []
  | .trapOut => []
  | .trapPuts => []
  | .trapPutsp => []
  | .trapHalt => []
  | .ret => []

/-- The general registers an instruction reads (R12). -/
def Instr.reads : Instr → List RegIdx
  | .addReg _ sr1 sr2 => [sr1, sr2]
  | .addImm _ sr1 _ => [sr1]
  | .andReg _ sr1 sr2 => [sr1, sr2]
  | .andImm _ sr1 _ => [sr1]
  | .not _ sr => [sr]
  | .jmp baseR => [baseR]
  | .ret => [7#3]
  | .jsrr baseR => [baseR]
  | .ldr _ baseR _ => [baseR]
  | .st sr _ => [sr]
  | .sti sr _ => [sr]
  | .str sr baseR _ => [sr, baseR]
  | .trapOut => [0#3]
  | .trapPuts => [0#3]
  | .trapPutsp => [0#3]
  | .trap v => if v = 0x21#8 ∨ v = 0x22#8 ∨ v = 0x24#8 then [0#3] else []
  | .br _ _ => []
  | .jsr _ => []
  | .ld _ _ => []
  | .ldi _ _ => []
  | .lea _ _ => []
  | .rti => []
  | .res => []
  | .trapGetc => []
  | .trapIn => []
  | .trapHalt => []

/-- The instructions that are the opcode TRAP (R95). -/
def Instr.isTrap : Instr → Bool
  | .trap _ => true
  | .trapGetc => true
  | .trapOut => true
  | .trapPuts => true
  | .trapIn => true
  | .trapPutsp => true
  | .trapHalt => true
  | .br _ _ => false
  | .addReg _ _ _ => false
  | .addImm _ _ _ => false
  | .ld _ _ => false
  | .st _ _ => false
  | .jsr _ => false
  | .jsrr _ => false
  | .andReg _ _ _ => false
  | .andImm _ _ _ => false
  | .ldr _ _ _ => false
  | .str _ _ _ => false
  | .rti => false
  | .not _ _ => false
  | .ldi _ _ => false
  | .sti _ _ => false
  | .jmp _ => false
  | .res => false
  | .lea _ _ => false
  | .ret => false

/-- The instructions that access memory by `MemRead` or `MemWrite` after the fetch (R37). -/
def Instr.accessesMem : Instr → Bool
  | .ld _ _ => true
  | .ldi _ _ => true
  | .ldr _ _ _ => true
  | .st _ _ => true
  | .sti _ _ => true
  | .str _ _ _ => true
  | .br _ _ => false
  | .addReg _ _ _ => false
  | .addImm _ _ _ => false
  | .jsr _ => false
  | .jsrr _ => false
  | .andReg _ _ _ => false
  | .andImm _ _ _ => false
  | .rti => false
  | .not _ _ => false
  | .jmp _ => false
  | .res => false
  | .lea _ _ => false
  | .trap _ => false
  | .trapGetc => false
  | .trapOut => false
  | .trapPuts => false
  | .trapIn => false
  | .trapPutsp => false
  | .trapHalt => false
  | .ret => false

/-- The cell an instruction stores to in the state it executes in (R37, R90, R91, R92). -/
def Instr.storeAddr (i : Instr) (s : Machine.State) : Option Word :=
  match i with
  | .st _ off9 => some (s.pcRel off9)
  | .sti _ off9 => some (s.readValue (s.pcRel off9))
  | .str _ baseR off6 => some (s.baseOff baseR off6)
  | .br _ _ => none
  | .addReg _ _ _ => none
  | .addImm _ _ _ => none
  | .ld _ _ => none
  | .jsr _ => none
  | .jsrr _ => none
  | .andReg _ _ _ => none
  | .andImm _ _ _ => none
  | .ldr _ _ _ => none
  | .rti => none
  | .not _ _ => none
  | .ldi _ _ => none
  | .jmp _ => none
  | .res => none
  | .lea _ _ => none
  | .trap _ => none
  | .trapGetc => none
  | .trapOut => none
  | .trapPuts => none
  | .trapIn => none
  | .trapPutsp => none
  | .trapHalt => none
  | .ret => none

/-- The bytes a TRAP routine may output come only from these five (R24): OUT, PUTS, IN, PUTSP, HALT, by either spelling. -/
def Instr.outputs : Instr → Bool
  | .trapOut => true
  | .trapPuts => true
  | .trapIn => true
  | .trapPutsp => true
  | .trapHalt => true
  | .trap v => v == 0x21#8 || v == 0x22#8 || v == 0x23#8 || v == 0x24#8 || v == 0x25#8
  | .trapGetc => false
  | .br _ _ => false
  | .addReg _ _ _ => false
  | .addImm _ _ _ => false
  | .ld _ _ => false
  | .st _ _ => false
  | .jsr _ => false
  | .jsrr _ => false
  | .andReg _ _ _ => false
  | .andImm _ _ _ => false
  | .ldr _ _ _ => false
  | .str _ _ _ => false
  | .rti => false
  | .not _ _ => false
  | .ldi _ _ => false
  | .sti _ _ => false
  | .jmp _ => false
  | .res => false
  | .lea _ _ => false
  | .ret => false

end Sys2Proof
end

