-- ==== Sys2Proof/Certificates/Slice0/Obligations.lean ====
section
/-! DEFINITION. The statements for the provers. Each docstring names the rule of spec/ it formalises.
`exec i s` runs in a state whose `pc` is already the incremented PC (R13, R141); `s.envMove` is the state after the environment's
coming move: `s` with characters appended to the input queue, possibly none, unless the move is a reset. -/

open Sys2Proof Sys2Proof.Machine

/-! ## Encoding and decoding (R55 to R68) -/

/-- R58, R64, R68: decoding the canonical word of a well-formed instruction gives it back, with every operand at every value.
The opcode numbers and three field positions are the spec's own choice (decisions D1, D2; log 4). -/
def Obligations.DecodeOfEncodeIsTheInstruction : Prop :=
  ∀ i : Instr, i.wf = true → decode (encode i) = i

/-- R61, R63: the ignored bits take no part in decoding (decision D4). Every word that agrees with an instruction's canonical word
outside the bits R61 lists for it decodes to that instruction, and the bits listed are exactly those of R61. -/
def Obligations.IgnoredBitsSelectTheSameInstruction : Prop :=
  (∀ (i : Instr) (w : Word), i.wf = true → w &&& ~~~ i.ignoredBits = encode i &&& ~~~ i.ignoredBits → decode w = i) ∧
  (∀ a b c : RegIdx, (Instr.addReg a b c).ignoredBits = 0x0018#16 ∧ (Instr.andReg a b c).ignoredBits = 0x0018#16 ∧
    (Instr.not a b).ignoredBits = 0x003F#16 ∧ (Instr.jmp a).ignoredBits = 0x0E3F#16 ∧ Instr.ret.ignoredBits = 0x0E3F#16 ∧
    (Instr.jsrr a).ignoredBits = 0x063F#16 ∧ Instr.rti.ignoredBits = 0x0FFF#16 ∧ Instr.res.ignoredBits = 0x0FFF#16) ∧
  (∀ i : Instr, i.isTrap = true → i.ignoredBits = 0x0F00#16)

/-- R63: the decoder is total and exact. Every one of the 65536 words decodes to a well-formed instruction whose row of the opcode
table it matches, and encoding that instruction gives back every bit that is not ignored: no operand bit is dropped or moved. -/
def Obligations.EveryWordMatchesTheRowItDecodesTo : Prop :=
  ∀ w : Word, (decode w).wf = true ∧ w &&& (decode w).rowMask = (decode w).rowMatch ∧
    encode (decode w) &&& ~~~ (decode w).ignoredBits = w &&& ~~~ (decode w).ignoredBits

/-- 95_test_vectors.md, decode-only vectors and Scenario A: words the spec writes out decode to the instructions it names. -/
def Obligations.WordsOfTheSpecDecodeAsNamed : Prop :=
  decode 0x12A5#16 = .addImm 1#3 2#3 5#5 ∧ decode 0x1080#16 = .addReg 0#3 2#3 0#3 ∧ decode 0x2FFF#16 = .ld 7#3 0x1FF#9 ∧
  decode 0x41C0#16 = .jsrr 7#3 ∧ decode 0x4800#16 = .jsr 0#11 ∧ decode 0x5FFF#16 = .andImm 7#3 7#3 0x1F#5 ∧
  decode 0x6FFF#16 = .ldr 7#3 7#3 0x3F#6 ∧ decode 0x7040#16 = .str 0#3 1#3 0#6 ∧ decode 0x8ABC#16 = .rti ∧
  decode 0x9FFF#16 = .not 7#3 7#3 ∧ decode 0xB201#16 = .sti 1#3 1#9 ∧ decode 0xC1C0#16 = .ret ∧
  decode 0xC080#16 = .jmp 2#3 ∧ decode 0xD123#16 = .res ∧ decode 0xE205#16 = .lea 1#3 5#9 ∧
  decode 0xF025#16 = .trapHalt ∧ decode 0xFF21#16 = .trapOut ∧ decode 0xFFFF#16 = .trap 0xFF#8 ∧
  decode 0x0402#16 = .br 0b010#3 2#9

/-- R60 (with the sign-extension property of 95_test_vectors.md S-P1): a field whose top bit is 0 keeps its value, one whose top
bit is 1 becomes its value minus 2^w modulo 65536, for the four widths w the machine extends. -/
def Obligations.SignExtensionIsModularSubtraction : Prop :=
  ∀ w : Nat, w ∈ [5, 6, 9, 11] → ∀ v : BitVec w,
    (v.msb = false → (sext v).toNat = v.toNat) ∧ (v.msb = true → (sext v).toNat + 2 ^ w = v.toNat + 65536)

/-! ## The step: fetch, increment, decode, execute (R13, R37, R118, R141) -/

/-- R141: when the machine is at an instruction boundary, running and not reset, a step is the environment's move, then the
fetch, then `exec` of the instruction the fetched word decodes to, in the state the fetch leaves. The move appends characters: the next
listed ones, none, or those of an endless schedule, a free value (R23, U6; logs 7 and 22), whatever they are. -/
def Obligations.StepRunsTheDecodedInstruction : Prop :=
  ∀ s : State, s.Fetches →
    step s = exec (decode s.envMove.fetchWord) s.envMove.afterFetch ∧
    (∀ cs rest, s.env = .arrive cs :: rest → s.envMove = { s with inq := s.inq ++ cs, env := rest }) ∧
    (s.env = [] → s.later = .quiet → s.envMove = s) ∧
    (∀ k n, s.env = [] → s.later = .endless k n →
      s.envMove = { s with inq := s.inq ++ Config.freeArrivals k n, later := .endless k (n + 1) })

/-- R13: a step fetches the word at `pc`, whatever the address, advances `pc`, dispatches on the opcode and executes. During the
execution `pc` is the incremented PC, which wraps from 0xFFFF to 0x0000 and which every PC-relative offset is added to; the
increment changes nothing else. (What a fetch from KBSR_ADDR does besides is decision D8, not R13, and is left out here.) -/
def Obligations.FetchReadsTheCellAtPcAndIncrementsIt : Prop :=
  ∀ s : State,
    (s.Fetches → s.pc ≠ s.cfg.kbsrAddr →
      step s = exec (decode (s.rawRead s.pc)) (s.envMove.setPc (s.pc + 1#16))) ∧
    s.afterFetch.pc.toNat = (s.pc.toNat + 1) % 65536 ∧ (s.pc = 0xFFFF#16 → s.afterFetch.pc = 0x0000#16) ∧
    (∀ off9 : BitVec 9, s.afterFetch.pcRel off9 = s.pc + 1#16 + off9.signExtend 16) ∧
    (∀ off11 : BitVec 11, s.afterFetch.pcRel off11 = s.pc + 1#16 + off11.signExtend 16) ∧
    SameRegs s s.afterFetch ∧ s.afterFetch.cond = s.cond ∧ SameControl s s.afterFetch ∧ s.afterFetch.out = s.out ∧
    (s.pc ≠ s.cfg.kbsrAddr → s.fetchWord = s.rawRead s.pc ∧ SameMem s s.afterFetch ∧ s.afterFetch.inq = s.inq)

/-- R37, R42 (f), R63 (decision D8; vector V-K2): a fetch from KBSR_ADDR polls the keyboard, and the word it reads is a no-op either
way. The characters it can find are those waiting after the environment's move. -/
def Obligations.FetchFromKbsrPollsAndIsANoOp : Prop :=
  ∀ s : State, s.Fetches → s.pc = s.cfg.kbsrAddr →
    ∃ t, step s = .next t ∧ t.pc = s.pc + 1#16 ∧ SameRegs s t ∧ t.cond = s.cond ∧ SameControl s.envMove t ∧ t.out = s.out ∧
      (∀ a : Word, a ≠ s.cfg.kbsrAddr → a ≠ s.cfg.kbdrAddr → t.rawRead a = s.rawRead a) ∧
      (s.envMove.inq = [] → t.inq = [] ∧ t.rawRead s.cfg.kbsrAddr = 0x0000#16 ∧
        t.rawRead s.cfg.kbdrAddr = s.rawRead s.cfg.kbdrAddr) ∧
      (∀ c rest, s.envMove.inq = c :: rest → t.inq = rest ∧ t.rawRead s.cfg.kbsrAddr = 0x8000#16 ∧
        t.rawRead s.cfg.kbdrAddr = c.zeroExtend 16)

/-- R115, R141: no instruction faults or is refused, in any state and with any operands, and no step of an accepted configuration
does. (That a held or halted machine answers a next state too is the model's choice, logs 5, 6, 8.) -/
def Obligations.NoInstructionAndNoStepStops : Prop :=
  (∀ (i : Instr) (s : State), ∃ t, exec i s = .next t) ∧
  (∀ s : State, s.cfg.valid = true → ∃ t, step s = .next t)

/-- R5, R34 (decision D31): a configuration whose two keyboard addresses are equal is rejected, and no other is. -/
def Obligations.OnlyEqualKeyboardAddressesAreRejected : Prop :=
  ∀ s : State, step s = .refused .invalidConfig ↔ s.cfg.kbsrAddr = s.cfg.kbdrAddr

/-! ## Memory and the keyboard registers (R30 to R47) -/

/-- R31: an effective address is a sum modulo 65536, and no instruction's access faults, whatever the address. -/
def Obligations.AddressArithmeticWrapsAndNoAccessFaults : Prop :=
  (∀ (s : State) (off9 : BitVec 9), (s.pcRel off9).toNat = (s.pc.toNat + (sext off9).toNat) % 65536) ∧
  (∀ (s : State) (b : RegIdx) (off6 : BitVec 6),
    (s.baseOff b off6).toNat = ((s.reg b).toNat + (sext off6).toNat) % 65536) ∧
  (∀ s : State, s.pc = 0xFFFF#16 → s.afterFetch.pc = 0x0000#16 ∧ s.pcRel 1#9 = 0x0000#16) ∧
  (∀ s : State, s.pc = 0x0000#16 → s.pcRel 0x1FF#9 = 0xFFFF#16) ∧
  (∀ (i : Instr) (s : State), ∃ t, exec i s = .next t)

/-- R32: `MemRead`. A read of KBSR_ADDR polls the input source and returns the cell the poll has just written; a read of any other
address, KBDR_ADDR included, returns the cell and has no side effect. The fetch and LD, LDI (twice), LDR and STI (for the pointer) read
so. -/
def Obligations.MemReadPollsTheKeyboardAtKbsrOnly : Prop :=
  (∀ (s : State) (a : Word), a ≠ s.cfg.kbsrAddr → s.readValue a = s.rawRead a ∧ s.readEffect a = s) ∧
  (∀ s : State, s.cfg.valid = true → s.inq = [] →
    s.readValue s.cfg.kbsrAddr = 0x0000#16 ∧ (s.readEffect s.cfg.kbsrAddr).rawRead s.cfg.kbsrAddr = 0x0000#16 ∧
    SameMemBut s.cfg.kbsrAddr s (s.readEffect s.cfg.kbsrAddr) ∧ (s.readEffect s.cfg.kbsrAddr).inq = []) ∧
  (∀ (s : State) (c : Byte) (rest : List Byte), s.cfg.valid = true → s.inq = c :: rest →
    s.readValue s.cfg.kbsrAddr = 0x8000#16 ∧ (s.readEffect s.cfg.kbsrAddr).rawRead s.cfg.kbsrAddr = 0x8000#16 ∧
    (s.readEffect s.cfg.kbsrAddr).rawRead s.cfg.kbdrAddr = c.zeroExtend 16 ∧
    (∀ a : Word, a ≠ s.cfg.kbsrAddr → a ≠ s.cfg.kbdrAddr → (s.readEffect s.cfg.kbsrAddr).rawRead a = s.rawRead a) ∧
    (s.readEffect s.cfg.kbsrAddr).inq = rest) ∧
  (∀ (s : State) (a : Word), SameRegs s (s.readEffect a) ∧ (s.readEffect a).pc = s.pc ∧ (s.readEffect a).cond = s.cond ∧
    (s.readEffect a).out = s.out ∧ SameControl s (s.readEffect a)) ∧
  (∀ s : State, s.fetchWord = s.readValue s.pc ∧ s.afterFetch = (s.readEffect s.pc).setPc (s.pc + 1#16)) ∧
  (∀ (s : State) (dr b sr : RegIdx) (off9 : BitVec 9) (off6 : BitVec 6),
    exec (.ld dr off9) s = .next ((s.readEffect (s.pcRel off9)).writeResult dr (s.readValue (s.pcRel off9))) ∧
    exec (.ldr dr b off6) s = .next ((s.readEffect (s.baseOff b off6)).writeResult dr (s.readValue (s.baseOff b off6))) ∧
    exec (.ldi dr off9) s = .next
      (((s.readEffect (s.pcRel off9)).readEffect (s.readValue (s.pcRel off9))).writeResult dr
        ((s.readEffect (s.pcRel off9)).readValue (s.readValue (s.pcRel off9)))) ∧
    exec (.sti sr off9) s = .next ((s.readEffect (s.pcRel off9)).memWrite (s.readValue (s.pcRel off9)) (s.reg sr)))

/-- R35: `MemWrite` stores the value at the address, for every address, the keyboard cells included, and does nothing else; ST, STR and
STI store so. -/
def Obligations.MemWriteIsAPlainStoreAtEveryAddress : Prop :=
  (∀ (s : State) (a v : Word), StoresAt a v s (s.memWrite a v)) ∧
  (∀ (s : State) (sr b : RegIdx) (off9 : BitVec 9) (off6 : BitVec 6),
    exec (.st sr off9) s = .next (s.memWrite (s.pcRel off9) (s.reg sr)) ∧
    exec (.str sr b off6) s = .next (s.memWrite (s.baseOff b off6) (s.reg sr)) ∧
    exec (.sti sr off9) s = .next ((s.readEffect (s.pcRel off9)).memWrite (s.readValue (s.pcRel off9)) (s.reg sr)))

/-- R37: an instruction changes no cell of memory but the one it stores to and, where it reads KBSR_ADDR, the two keyboard cells; an
instruction that makes no `MemRead` or `MemWrite` after the fetch changes no cell at all. -/
def Obligations.InstructionsChangeNoOtherCell : Prop :=
  ∀ (i : Instr) (s t : State), exec i s = .next t →
    (i.accessesMem = false → SameMem s t) ∧
    (∀ a : Word, i.storeAddr s ≠ some a → a ≠ s.cfg.kbsrAddr → a ≠ s.cfg.kbdrAddr → t.rawRead a = s.rawRead a)

/-- R93: a value stored through a base register and loaded back from the same cell, by LDR or by an LD that reaches it, is
unchanged, at every address but KBSR_ADDR. -/
def Obligations.StoreThenLoadReturnsTheValue : Prop :=
  ∀ (s : State) (sr b dr : RegIdx) (off6 : BitVec 6), s.baseOff b off6 ≠ s.cfg.kbsrAddr →
    ∃ t, exec (.str sr b off6) s = .next t ∧
      (∃ u, exec (.ldr dr b off6) t = .next u ∧ u.reg dr = s.reg sr) ∧
      (∀ off9 : BitVec 9, t.pcRel off9 = s.baseOff b off6 → ∃ u, exec (.ld dr off9) t = .next u ∧ u.reg dr = s.reg sr)

/-- R47, R145: self-modifying code is exact. An ST to the very next cell is seen by the next step's fetch, which runs the stored
word (where the environment does not reset the machine before it). -/
def Obligations.StoreToTheNextCellIsExecutedNext : Prop :=
  ∀ (s : State) (sr : RegIdx), s.Fetches → s.pc ≠ s.cfg.kbsrAddr → s.pc + 1#16 ≠ s.cfg.kbsrAddr →
    decode (s.rawRead s.pc) = .st sr 0#9 →
    ∃ t, step s = .next t ∧ t.pc = s.pc + 1#16 ∧ SameRegs s t ∧ t.rawRead (s.pc + 1#16) = s.reg sr ∧
      (s.envMove.resetNext = false → step t = exec (decode (s.reg sr)) (t.envMove.setPc (s.pc + 2#16)))

/-! ## Flags (R15 to R17, R27, R146) -/

/-- R16: the flag updater reads the register after the write and replaces the whole of `cond`, by exactly one of the three
values, and changes nothing else. -/
def Obligations.SetccSetsExactlyOneFlagFromTheRegister : Prop :=
  ∀ (s : State) (r : RegIdx),
    (0x8000 ≤ (s.reg r).toNat → (s.setcc r).cond = 0b100#3) ∧
    ((s.reg r).toNat = 0 → (s.setcc r).cond = 0b010#3) ∧
    (0x0001 ≤ (s.reg r).toNat → (s.reg r).toNat ≤ 0x7FFF → (s.setcc r).cond = 0b001#3) ∧
    condOneHot (s.setcc r).cond = true ∧
    SameRegs s (s.setcc r) ∧ (s.setcc r).pc = s.pc ∧ SameMem s (s.setcc r) ∧ SameIO s (s.setcc r) ∧ SameControl s (s.setcc r)

/-- R17: exactly seven instructions give their destination register, after their write, to the flag updater; every other leaves `cond`
untouched; and only BR reads `cond`: what any other instruction does to everything else is the same for every value of `cond`. -/
def Obligations.OnlySevenInstructionsWriteFlagsAndOnlyBranchReadsThem : Prop :=
  (∀ (i : Instr) (s t : State), exec i s = .next t →
    (∀ d, i.flagReg = some d → t.cond = condOf (t.reg d)) ∧ (i.flagReg = none → t.cond = s.cond)) ∧
  (∀ (i : Instr) (s t : State) (c : Cond), (∀ nzp off9, i ≠ .br nzp off9) → exec i s = .next t →
    ∃ t', exec i (s.setCond c) = .next t' ∧ t'.setCond t.cond = t)

/-- R26, R81, R146 (decision D18): while no flag is set, as after reset, no BR is taken, whatever its n, z, p bits. -/
def Obligations.BranchBeforeTheFirstFlagIsNeverTaken : Prop :=
  ∀ s : State, s.Fetches → s.cond = 0#3 → opField s.envMove.fetchWord = 0x0#4 →
    ∃ t, step s = .next t ∧ t.pc = s.pc + 1#16 ∧ t.cond = 0#3 ∧ SameRegs s t

/-- R27: from the first flag-setting instruction on, exactly one of N, Z, P is set: each of the seven instructions sets exactly one,
and no step but a reset leaves any other value. -/
def Obligations.ExactlyOneFlagFromTheFirstFlagSettingInstructionOn : Prop :=
  (∀ (i : Instr) (s t : State), i.flagReg ≠ none → exec i s = .next t → condOneHot t.cond = true) ∧
  (∀ s t : State, s.resetNext = false → condOneHot s.cond = true → step s = .next t → condOneHot t.cond = true)

/-! ## Operate instructions (R75 to R79) -/

/-- R75, R76: ADD, both forms. -/
def Obligations.AddWritesTheWrappedSumAndSetsTheFlags : Prop :=
  ∀ (s : State) (dr sr1 sr2 : RegIdx) (imm5 : BitVec 5),
    (∃ t, exec (.addReg dr sr1 sr2) s = .next t ∧ WritesResult dr (s.reg sr1 + s.reg sr2) s t ∧
      (t.reg dr).toNat = ((s.reg sr1).toNat + (s.reg sr2).toNat) % 65536) ∧
    (∃ t, exec (.addImm dr sr1 imm5) s = .next t ∧ WritesResult dr (s.reg sr1 + imm5.signExtend 16) s t)

/-- R75, R77: AND, both forms; the immediate is sign-extended before the AND. -/
def Obligations.AndWritesTheBitwiseAndAndSetsTheFlags : Prop :=
  ∀ (s : State) (dr sr1 sr2 : RegIdx) (imm5 : BitVec 5),
    (∃ t, exec (.andReg dr sr1 sr2) s = .next t ∧ WritesResult dr (s.reg sr1 &&& s.reg sr2) s t) ∧
    (∃ t, exec (.andImm dr sr1 imm5) s = .next t ∧ WritesResult dr (s.reg sr1 &&& imm5.signExtend 16) s t)

/-- R75, R78: NOT. -/
def Obligations.NotWritesTheComplementAndSetsTheFlags : Prop :=
  ∀ (s : State) (dr sr : RegIdx), ∃ t, exec (.not dr sr) s = .next t ∧ WritesResult dr (~~~ s.reg sr) s t ∧
    (t.reg dr).toNat = 65535 - (s.reg sr).toNat

/-! ## Control instructions (R80 to R84) -/

/-- R81: BR, taken and not taken. -/
def Obligations.BranchIsTakenWhenAFlagItNamesIsSet : Prop :=
  ∀ (s : State) (nzp : Cond) (off9 : BitVec 9),
    (nzp &&& s.cond ≠ 0#3 → ∃ t, exec (.br nzp off9) s = .next t ∧ GoesTo (s.pc + off9.signExtend 16) s t) ∧
    (nzp &&& s.cond = 0#3 → ∃ t, exec (.br nzp off9) s = .next t ∧ GoesTo s.pc s t)

/-- R82: JMP goes to the base register's value, and RET is JMP with base register R7; neither writes R7. -/
def Obligations.JumpGoesToTheBaseRegister : Prop :=
  ∀ (s : State) (b : RegIdx),
    (∃ t, exec (.jmp b) s = .next t ∧ GoesTo (s.reg b) s t) ∧ (∃ t, exec .ret s = .next t ∧ GoesTo (s.reg 7#3) s t)

/-- R83, R84 (decision D21): JSR and JSRR write the return address to R7 without setting flags; JSRR reads its base after that
write, so JSRR R7 falls through to the next instruction (R148). -/
def Obligations.CallsLinkThroughR7BeforeTheyReadTheBase : Prop :=
  ∀ (s : State) (b : RegIdx) (off11 : BitVec 11),
    (∃ t, exec (.jsr off11) s = .next t ∧ CallsTo (s.pc + off11.signExtend 16) s t) ∧
    (b ≠ 7#3 → ∃ t, exec (.jsrr b) s = .next t ∧ CallsTo (s.reg b) s t) ∧
    (∃ t, exec (.jsrr 7#3) s = .next t ∧ CallsTo s.pc s t)

/-- R14: how each instruction leaves `pc`. -/
def Obligations.EachInstructionLeavesPcAsTabled : Prop :=
  ∀ (i : Instr) (s t : State), exec i s = .next t →
    (∀ nzp off9, i = .br nzp off9 → t.pc = if nzp &&& s.cond ≠ 0#3 then s.pc + off9.signExtend 16 else s.pc) ∧
    (∀ b, i = .jmp b → t.pc = s.reg b) ∧ (i = .ret → t.pc = s.reg 7#3) ∧
    (∀ off11, i = .jsr off11 → t.pc = s.pc + off11.signExtend 16) ∧
    (∀ b, i = .jsrr b → t.pc = if b = 7#3 then s.pc else s.reg b) ∧
    (i.opcode ≠ 0x0#4 → i.opcode ≠ 0x4#4 → i.opcode ≠ 0xC#4 → t.pc = s.pc)

/-! ## Loads, stores, load effective address (R85 to R92) -/

/-- R85, R86: LD. -/
def Obligations.LoadReadsThePcRelativeCell : Prop :=
  ∀ (s : State) (dr : RegIdx) (off9 : BitVec 9), ∃ t, exec (.ld dr off9) s = .next t ∧
    WritesResult dr (s.readValue (s.pc + off9.signExtend 16)) (s.readEffect (s.pc + off9.signExtend 16)) t ∧
    (s.pc + off9.signExtend 16 ≠ s.cfg.kbsrAddr → WritesResult dr (s.rawRead (s.pc + off9.signExtend 16)) s t)

/-- R85, R87: LDI: the pointer first, then the operand, each by a `MemRead`. -/
def Obligations.LoadIndirectReadsThroughThePointer : Prop :=
  ∀ (s : State) (dr : RegIdx) (off9 : BitVec 9), ∃ t, exec (.ldi dr off9) s = .next t ∧
    (∀ (ea p : Word) (u : State), ea = s.pc + off9.signExtend 16 → p = s.readValue ea → u = s.readEffect ea →
      WritesResult dr (u.readValue p) (u.readEffect p) t ∧
      (ea ≠ s.cfg.kbsrAddr → p ≠ s.cfg.kbsrAddr → WritesResult dr (s.rawRead (s.rawRead ea)) s t))

/-- R85, R88: LDR; the base is read before DR is written. -/
def Obligations.LoadBaseOffsetReadsTheCellItAddresses : Prop :=
  ∀ (s : State) (dr b : RegIdx) (off6 : BitVec 6), ∃ t, exec (.ldr dr b off6) s = .next t ∧
    WritesResult dr (s.readValue (s.reg b + off6.signExtend 16)) (s.readEffect (s.reg b + off6.signExtend 16)) t ∧
    (s.reg b + off6.signExtend 16 ≠ s.cfg.kbsrAddr → WritesResult dr (s.rawRead (s.reg b + off6.signExtend 16)) s t)

/-- R85, R89: LEA writes the address itself and sets the flags; it makes no memory access, so it never polls. -/
def Obligations.LoadEffectiveAddressSetsFlagsWithoutAnAccess : Prop :=
  ∀ (s : State) (dr : RegIdx) (off9 : BitVec 9), ∃ t, exec (.lea dr off9) s = .next t ∧
    WritesResult dr (s.pc + off9.signExtend 16) s t ∧ t.mem = s.mem

/-- R85, R90, R92: ST and STR store the source register at the address their mode computes, and change nothing else. -/
def Obligations.StoresWriteTheCellTheyAddress : Prop :=
  ∀ (s : State) (sr b : RegIdx) (off9 : BitVec 9) (off6 : BitVec 6),
    (∃ t, exec (.st sr off9) s = .next t ∧ StoresAt (s.pc + off9.signExtend 16) (s.reg sr) s t) ∧
    (∃ t, exec (.str sr b off6) s = .next t ∧ StoresAt (s.reg b + off6.signExtend 16) (s.reg sr) s t)

/-- R85, R91: STI: the pointer is read by a `MemRead`, which can poll, before the store. -/
def Obligations.StoreIndirectWritesThroughThePointer : Prop :=
  ∀ (s : State) (sr : RegIdx) (off9 : BitVec 9), ∃ t, exec (.sti sr off9) s = .next t ∧
    (∀ ea : Word, ea = s.pc + off9.signExtend 16 →
      StoresAt (s.readValue ea) (s.reg sr) (s.readEffect ea) t ∧
      (ea ≠ s.cfg.kbsrAddr → StoresAt (s.rawRead ea) (s.reg sr) s t))

/-! ## TRAP and the six services (R95 to R105) -/

/-- R96: common to every vector. `pc` and `cond` are left, no memory is written, no register but R0 is written and R0 only by GETC and IN,
no register but R0 is read; the routine completes or is held within the step. -/
def Obligations.TrapRoutinesLeaveAllButTheirOwnContract : Prop :=
  ∀ (i : Instr) (s : State), i.isTrap = true →
    ∃ t, exec i s = .next t ∧ TrapFrame s t ∧
      (i ≠ .trapGetc → i ≠ .trapIn → i ≠ .trap 0x20#8 → i ≠ .trap 0x23#8 → SameRegs s t) ∧
      (∀ (r : RegIdx) (v : Word), r ≠ 0#3 → exec i (s.setReg r v) = .next (t.setReg r v))

/-- R97 (decision D30): GETC takes the oldest character into R0, zero-extended, with no echo, no flag update and no access to the
keyboard cells. -/
def Obligations.GetcTakesTheOldestCharacter : Prop :=
  ∀ (s : State) (c : Byte) (rest : List Byte), s.inq = c :: rest →
    ∃ t, exec .trapGetc s = .next t ∧ t.reg 0#3 = c.zeroExtend 16 ∧ TrapFrame s t ∧ t.inq = rest ∧ t.out = s.out ∧
      t.run = s.run ∧ t.held = none

/-- R100 (decision D16): IN writes the prompt, takes the oldest character into R0, zero-extended, and echoes it. -/
def Obligations.InPromptsTakesACharacterAndEchoesIt : Prop :=
  ∀ (s : State) (c : Byte) (rest : List Byte), s.inq = c :: rest →
    ∃ t, exec .trapIn s = .next t ∧ t.reg 0#3 = c.zeroExtend 16 ∧ TrapFrame s t ∧ t.inq = rest ∧
      t.out = s.out ++ s.cfg.inPrompt ++ [c] ∧ t.run = s.run ∧ t.held = none

/-- R104 (decision D15; the field `held` is the model's, log 5): with no character waiting, GETC and IN are held: nothing has changed but,
for IN, the prompt that was output. -/
def Obligations.GetcAndInAreHeldWhileNoCharacterWaits : Prop :=
  ∀ s : State, s.inq = [] →
    (∃ t, exec .trapGetc s = .next t ∧ t.held = some .getc ∧ TrapFrame s t ∧ SameRegs s t ∧ SameIO s t ∧ t.run = s.run) ∧
    (∃ t, exec .trapIn s = .next t ∧ t.held = some .inp ∧ TrapFrame s t ∧ SameRegs s t ∧ t.inq = [] ∧
      t.out = s.out ++ s.cfg.inPrompt ∧ t.run = s.run)

/-- R104, R129 (the field `held` is the model's, log 5): a held GETC or IN stays held, with nothing changed, while no character
arrives, and completes with the oldest character when one does; IN does not repeat its prompt. -/
def Obligations.AHeldReadCompletesWhenACharacterArrives : Prop :=
  ∀ s : State, s.cfg.valid = true → s.run = true → s.resetNext = false → (s.held = some .getc ∨ s.held = some .inp) →
    (s.envMove.inq = [] → step s = .next s.envMove) ∧
    (∀ c rest, s.envMove.inq = c :: rest → ∃ t, step s = .next t ∧ t.held = none ∧ t.reg 0#3 = c.zeroExtend 16 ∧
      SameRegsBut 0#3 s t ∧ t.pc = s.pc ∧ t.cond = s.cond ∧ SameMem s t ∧ t.run = true ∧ t.inq = rest ∧
      t.out = s.out ++ (if s.held = some .inp then [c] else []))

/-- R98: OUT outputs the low 8 bits of R0 and does nothing else. -/
def Obligations.OutWritesTheLowByteOfR0 : Prop :=
  ∀ s : State, ∃ t, exec .trapOut s = .next t ∧ t.out = s.out ++ [(s.reg 0#3).setWidth 8] ∧ TrapFrame s t ∧ SameRegs s t ∧
    t.inq = s.inq ∧ t.run = s.run ∧ t.held = s.held

/-- R99 (decisions D9, D10): PUTS outputs the low byte of each cell of the string at R0, up to the zero cell, and does nothing else. -/
def Obligations.PutsWritesTheStringAtR0 : Prop :=
  ∀ (s : State) (ws : List Word), StringAt s (s.reg 0#3) ws →
    ∃ t, exec .trapPuts s = .next t ∧ t.out = s.out ++ ws.map (fun w : Word => w.setWidth 8) ∧ TrapFrame s t ∧ SameRegs s t ∧
      t.inq = s.inq ∧ t.run = s.run ∧ t.held = none

/-- R101 (decisions D9, D11): PUTSP outputs the low byte of each cell of the string at R0 and then its high byte if that is not zero. -/
def Obligations.PutspWritesThePackedStringAtR0 : Prop :=
  ∀ (s : State) (ws : List Word), StringAt s (s.reg 0#3) ws →
    ∃ t, exec .trapPutsp s = .next t ∧
      t.out = s.out ++ ws.flatMap (fun w : Word =>
        if (w >>> 8).setWidth 8 ≠ 0#8 then [w.setWidth 8, (w >>> 8).setWidth 8] else [w.setWidth 8]) ∧
      TrapFrame s t ∧ SameRegs s t ∧ t.inq = s.inq ∧ t.run = s.run ∧ t.held = none

/-- R99, R101, R104 (the laps are the model's, log 6): where no cell of memory is zero, PUTS and PUTSP never complete. Each step outputs
the walk over all 65536 cells from R0 once more and the machine stays inside the routine. -/
def Obligations.AWalkWithoutAZeroCellNeverCompletes : Prop :=
  ∀ s : State, NoZeroCell s →
    (∃ t, exec .trapPuts s = .next t ∧ t.held = some .puts ∧ TrapFrame s t ∧ SameRegs s t ∧ t.run = s.run ∧
      t.out = s.out ++ (List.range 65536).map (fun k => (s.rawRead (s.reg 0#3 + BitVec.ofNat 16 k)).setWidth 8)) ∧
    (∃ t, exec .trapPutsp s = .next t ∧ t.held = some .putsp ∧ TrapFrame s t ∧ SameRegs s t ∧ t.run = s.run ∧
      t.out = s.out ++ (List.range 65536).flatMap (fun k =>
        if (s.rawRead (s.reg 0#3 + BitVec.ofNat 16 k) >>> 8).setWidth 8 ≠ 0#8 then
          [(s.rawRead (s.reg 0#3 + BitVec.ofNat 16 k)).setWidth 8, (s.rawRead (s.reg 0#3 + BitVec.ofNat 16 k) >>> 8).setWidth 8]
        else [(s.rawRead (s.reg 0#3 + BitVec.ofNat 16 k)).setWidth 8])) ∧
    (s.cfg.valid = true → s.run = true → s.resetNext = false →
      NoZeroCell s.envMove ∧ (s.held = some .puts → step s = exec .trapPuts s.envMove) ∧
      (s.held = some .putsp → step s = exec .trapPutsp s.envMove))

/-- R102 (decision D17): HALT outputs the halt notice and clears the run latch; everything else keeps its value. -/
def Obligations.HaltWritesTheNoticeAndClearsTheRunLatch : Prop :=
  ∀ s : State, ∃ t, exec .trapHalt s = .next t ∧ t.run = false ∧ t.out = s.out ++ s.cfg.haltNotice ∧ TrapFrame s t ∧
    SameRegs s t ∧ t.inq = s.inq ∧ t.held = s.held

/-- R95, R103 (decisions D13, D14): the low byte of a word with opcode 1111, whatever its bits 11:8, selects the routine; a vector outside
0x20..0x25 changes nothing. The last clauses say the same of the terms `.trap v`, every one of them: those with a vector in
0x20..0x25 are terms that the decoder never gives, and that they mean the service is the model's choice (log 19). -/
def Obligations.TheVectorSelectsTheRoutine : Prop :=
  (∀ w : Word, opField w = 0xF#4 →
    (w.setWidth 8 = 0x20#8 → decode w = .trapGetc) ∧ (w.setWidth 8 = 0x21#8 → decode w = .trapOut) ∧
    (w.setWidth 8 = 0x22#8 → decode w = .trapPuts) ∧ (w.setWidth 8 = 0x23#8 → decode w = .trapIn) ∧
    (w.setWidth 8 = 0x24#8 → decode w = .trapPutsp) ∧ (w.setWidth 8 = 0x25#8 → decode w = .trapHalt) ∧
    (((w.setWidth 8).toNat < 0x20 ∨ 0x25 < (w.setWidth 8).toNat) → ∀ s : State, exec (decode w) s = .next s)) ∧
  (∀ s : State,
    exec (.trap 0x20#8) s = exec .trapGetc s ∧ exec (.trap 0x21#8) s = exec .trapOut s ∧
    exec (.trap 0x22#8) s = exec .trapPuts s ∧ exec (.trap 0x23#8) s = exec .trapIn s ∧
    exec (.trap 0x24#8) s = exec .trapPutsp s ∧ exec (.trap 0x25#8) s = exec .trapHalt s ∧
    (∀ v : BitVec 8, (v.toNat < 0x20 ∨ 0x25 < v.toNat) → exec (.trap v) s = .next s))

/-- R110, R111 (decision D12): RTI and RES do nothing: of all that the environment's move leaves, the step has only advanced `pc`. -/
def Obligations.ReservedOpcodesAreNoOps : Prop :=
  (∀ s : State, exec .rti s = .next s ∧ exec .res s = .next s) ∧
  (∀ s : State, s.Fetches → s.pc ≠ s.cfg.kbsrAddr →
    (opField (s.rawRead s.pc) = 0x8#4 ∨ opField (s.rawRead s.pc) = 0xD#4) → step s = .next (s.envMove.setPc (s.pc + 1#16)))

/-- R22, R24, R105: characters are taken only from the front of the input queue, in arrival order; output is only appended to, and only
OUT, PUTS, IN, PUTSP and HALT append. -/
def Obligations.InputIsTakenInOrderAndOutputOnlyGrows : Prop :=
  ∀ (i : Instr) (s t : State), exec i s = .next t →
    (∃ taken, s.inq = taken ++ t.inq) ∧ (∃ bs, t.out = s.out ++ bs ∧ (i.outputs = false → bs = []))

/-! ## Registers, the whole instruction set (R12) -/

/-- R12: an instruction writes no general register but those its row of the table names. -/
def Obligations.OnlyTheTabledRegistersAreWritten : Prop :=
  ∀ (i : Instr) (s t : State), exec i s = .next t → ∀ r : RegIdx, r ∉ i.writes → t.reg r = s.reg r

/-- R12: an instruction learns nothing of a general register that its row of the table does not name as read, be it written or not: with any
other value in it, the instruction runs to a next state that differs at most in what that register holds. (Where the register is not
written either, it holds that other value still, by `OnlyTheTabledRegistersAreWritten`.) -/
def Obligations.RegistersNotTabledAsReadDoNotMatter : Prop :=
  ∀ (i : Instr) (s t : State) (r : RegIdx) (v : Word), r ∉ i.reads → exec i s = .next t →
    ∃ t', exec i (s.setReg r v) = .next t' ∧ ∀ w : Word, t'.setReg r w = t.setReg r w

/-! ## Reset, the end of a run, invariants (R18, R26, R27, R135, R143) -/

/-- R26, R135 (decisions D18, D20, D25): the state at the start of a run: every general register 0, `pc` at PC_START, no flag set, running,
and memory, input and parameters as the host gives them; the default PC_START is 0x3000. -/
def Obligations.RunsStartInTheResetState : Prop :=
  (∀ (cfg : Config) (m : Memory) (inq : List Byte) (env : List EnvMove) (later : Later),
    (∀ r : RegIdx, (State.launch cfg m inq env later).reg r = 0x0000#16) ∧ (State.launch cfg m inq env later).pc = cfg.pcStart ∧
    (State.launch cfg m inq env later).cond = 0b000#3 ∧ (State.launch cfg m inq env later).run = true ∧
    (∀ a : Word, (State.launch cfg m inq env later).rawRead a = Memory.read m a.toNat) ∧
    (State.launch cfg m inq env later).inq = inq ∧ (State.launch cfg m inq env later).out = []) ∧
  State.reset.pc = 0x3000#16

/-- R135 (decision D25): reset, in any condition (running, held or halted), gives every register its reset value and starts the engine; it does
not touch memory or the channels. -/
def Obligations.ResetRestartsTheEngineFromAnyCondition : Prop :=
  ∀ (s : State) (rest : List EnvMove), s.cfg.valid = true → s.env = .reset :: rest →
    ∃ t, step s = .next t ∧ (∀ r : RegIdx, t.reg r = 0x0000#16) ∧ t.pc = s.cfg.pcStart ∧ t.cond = 0b000#3 ∧ t.run = true ∧
      t.held = none ∧ SameMem s t ∧ SameIO s t ∧ t.cfg = s.cfg ∧ t.env = rest ∧ t.later = s.later

/-- R18, R102, R129 (that a halted machine answers a next state is the model's choice, log 8): once halted, no step but a reset changes
any register, flag, cell or output, or sets the run latch. -/
def Obligations.AHaltedMachineStaysFrozenUntilReset : Prop :=
  ∀ s : State, s.cfg.valid = true → s.run = false → s.resetNext = false →
    ∃ t, step s = .next t ∧ t.run = false ∧ SameRegs s t ∧ t.pc = s.pc ∧ t.cond = s.cond ∧ t.mem = s.mem ∧ t.out = s.out ∧
      t.held = s.held ∧ t.cfg = s.cfg

/-- R143: a run ends when, and only when, a step executes a TRAP whose low byte is 0x25; then `pc` is the address after that TRAP,
registers, flags and memory are as before it, and the output ends with the halt notice. -/
def Obligations.ARunEndsExactlyAtTrapHalt : Prop :=
  ∀ s t : State, s.cfg.valid = true → s.run = true → s.resetNext = false → step s = .next t →
    (t.run = false ↔ s.held = none ∧ opField s.envMove.fetchWord = 0xF#4 ∧ vectField s.envMove.fetchWord = 0x25#8) ∧
    (t.run = false → t.pc = s.pc + 1#16 ∧ SameRegs s t ∧ t.cond = s.cond ∧ SameMem s t ∧ t.out = s.out ++ s.cfg.haltNotice ∧
      t.halted = true)

/-- R5, R21, R27, R34: the invariant of every run (memory canonical, configuration accepted, condition codes legal) is kept by every step
from every state that has it. -/
def Obligations.EveryStepKeepsTheInvariant : Prop :=
  ∀ s t : State, s.Inv → step s = .next t → t.Inv

/-- R26, R34: the invariant holds in the reset state and at the start of every run with an accepted configuration and a canonical memory
(the canonical form is the model's, log 1 and log 2). -/
def Obligations.TheInvariantHoldsAtTheStartOfARun : Prop :=
  State.reset.Inv ∧
  (∀ (cfg : Config) (m : Memory) (inq : List Byte) (env : List EnvMove) (later : Later), cfg.valid = true → Memory.wf m = true →
    (State.launch cfg m inq env later).Inv)
end

