-- ==== Sys2Proof/Laws/State.lean ====
section
/-! SUPPORT. What each update of the state leaves in each field: one lemma per field per update. -/

namespace Sys2Proof.Machine

variable (s : State)

/-! `State.setReg` -/

@[simp] theorem setReg_x (r : RegIdx) (v : Word) : (s.setReg r v).x = s.x.set r.toNat v r.isLt := rfl
@[simp] theorem setReg_pc (r : RegIdx) (v : Word) : (s.setReg r v).pc = s.pc := rfl
@[simp] theorem setReg_cond (r : RegIdx) (v : Word) : (s.setReg r v).cond = s.cond := rfl
@[simp] theorem setReg_run (r : RegIdx) (v : Word) : (s.setReg r v).run = s.run := rfl
@[simp] theorem setReg_mem (r : RegIdx) (v : Word) : (s.setReg r v).mem = s.mem := rfl
@[simp] theorem setReg_inq (r : RegIdx) (v : Word) : (s.setReg r v).inq = s.inq := rfl
@[simp] theorem setReg_out (r : RegIdx) (v : Word) : (s.setReg r v).out = s.out := rfl
@[simp] theorem setReg_held (r : RegIdx) (v : Word) : (s.setReg r v).held = s.held := rfl
@[simp] theorem setReg_env (r : RegIdx) (v : Word) : (s.setReg r v).env = s.env := rfl
@[simp] theorem setReg_later (r : RegIdx) (v : Word) : (s.setReg r v).later = s.later := rfl
@[simp] theorem setReg_cfg (r : RegIdx) (v : Word) : (s.setReg r v).cfg = s.cfg := rfl

/-! `State.setPc` -/

@[simp] theorem setPc_x (v : Word) : (s.setPc v).x = s.x := rfl
@[simp] theorem setPc_pc (v : Word) : (s.setPc v).pc = v := rfl
@[simp] theorem setPc_cond (v : Word) : (s.setPc v).cond = s.cond := rfl
@[simp] theorem setPc_run (v : Word) : (s.setPc v).run = s.run := rfl
@[simp] theorem setPc_mem (v : Word) : (s.setPc v).mem = s.mem := rfl
@[simp] theorem setPc_inq (v : Word) : (s.setPc v).inq = s.inq := rfl
@[simp] theorem setPc_out (v : Word) : (s.setPc v).out = s.out := rfl
@[simp] theorem setPc_held (v : Word) : (s.setPc v).held = s.held := rfl
@[simp] theorem setPc_env (v : Word) : (s.setPc v).env = s.env := rfl
@[simp] theorem setPc_later (v : Word) : (s.setPc v).later = s.later := rfl
@[simp] theorem setPc_cfg (v : Word) : (s.setPc v).cfg = s.cfg := rfl

/-! `State.setCond` -/

@[simp] theorem setCond_x (c : Cond) : (s.setCond c).x = s.x := rfl
@[simp] theorem setCond_pc (c : Cond) : (s.setCond c).pc = s.pc := rfl
@[simp] theorem setCond_cond (c : Cond) : (s.setCond c).cond = c := rfl
@[simp] theorem setCond_run (c : Cond) : (s.setCond c).run = s.run := rfl
@[simp] theorem setCond_mem (c : Cond) : (s.setCond c).mem = s.mem := rfl
@[simp] theorem setCond_inq (c : Cond) : (s.setCond c).inq = s.inq := rfl
@[simp] theorem setCond_out (c : Cond) : (s.setCond c).out = s.out := rfl
@[simp] theorem setCond_held (c : Cond) : (s.setCond c).held = s.held := rfl
@[simp] theorem setCond_env (c : Cond) : (s.setCond c).env = s.env := rfl
@[simp] theorem setCond_later (c : Cond) : (s.setCond c).later = s.later := rfl
@[simp] theorem setCond_cfg (c : Cond) : (s.setCond c).cfg = s.cfg := rfl

/-! `State.stop` -/

@[simp] theorem stop_x : s.stop.x = s.x := rfl
@[simp] theorem stop_pc : s.stop.pc = s.pc := rfl
@[simp] theorem stop_cond : s.stop.cond = s.cond := rfl
@[simp] theorem stop_run : s.stop.run = false := rfl
@[simp] theorem stop_mem : s.stop.mem = s.mem := rfl
@[simp] theorem stop_inq : s.stop.inq = s.inq := rfl
@[simp] theorem stop_out : s.stop.out = s.out := rfl
@[simp] theorem stop_held : s.stop.held = s.held := rfl
@[simp] theorem stop_env : s.stop.env = s.env := rfl
@[simp] theorem stop_later : s.stop.later = s.later := rfl
@[simp] theorem stop_cfg : s.stop.cfg = s.cfg := rfl

/-! `State.setHeld` -/

@[simp] theorem setHeld_x (h : Option Held) : (s.setHeld h).x = s.x := rfl
@[simp] theorem setHeld_pc (h : Option Held) : (s.setHeld h).pc = s.pc := rfl
@[simp] theorem setHeld_cond (h : Option Held) : (s.setHeld h).cond = s.cond := rfl
@[simp] theorem setHeld_run (h : Option Held) : (s.setHeld h).run = s.run := rfl
@[simp] theorem setHeld_mem (h : Option Held) : (s.setHeld h).mem = s.mem := rfl
@[simp] theorem setHeld_inq (h : Option Held) : (s.setHeld h).inq = s.inq := rfl
@[simp] theorem setHeld_out (h : Option Held) : (s.setHeld h).out = s.out := rfl
@[simp] theorem setHeld_held (h : Option Held) : (s.setHeld h).held = h := rfl
@[simp] theorem setHeld_env (h : Option Held) : (s.setHeld h).env = s.env := rfl
@[simp] theorem setHeld_later (h : Option Held) : (s.setHeld h).later = s.later := rfl
@[simp] theorem setHeld_cfg (h : Option Held) : (s.setHeld h).cfg = s.cfg := rfl

/-! `State.outPut` -/

@[simp] theorem outPut_x (bs : List Byte) : (s.outPut bs).x = s.x := rfl
@[simp] theorem outPut_pc (bs : List Byte) : (s.outPut bs).pc = s.pc := rfl
@[simp] theorem outPut_cond (bs : List Byte) : (s.outPut bs).cond = s.cond := rfl
@[simp] theorem outPut_run (bs : List Byte) : (s.outPut bs).run = s.run := rfl
@[simp] theorem outPut_mem (bs : List Byte) : (s.outPut bs).mem = s.mem := rfl
@[simp] theorem outPut_inq (bs : List Byte) : (s.outPut bs).inq = s.inq := rfl
@[simp] theorem outPut_out (bs : List Byte) : (s.outPut bs).out = s.out ++ bs := rfl
@[simp] theorem outPut_held (bs : List Byte) : (s.outPut bs).held = s.held := rfl
@[simp] theorem outPut_env (bs : List Byte) : (s.outPut bs).env = s.env := rfl
@[simp] theorem outPut_later (bs : List Byte) : (s.outPut bs).later = s.later := rfl
@[simp] theorem outPut_cfg (bs : List Byte) : (s.outPut bs).cfg = s.cfg := rfl

/-! `State.memWrite` -/

@[simp] theorem memWrite_x (a v : Word) : (s.memWrite a v).x = s.x := rfl
@[simp] theorem memWrite_pc (a v : Word) : (s.memWrite a v).pc = s.pc := rfl
@[simp] theorem memWrite_cond (a v : Word) : (s.memWrite a v).cond = s.cond := rfl
@[simp] theorem memWrite_run (a v : Word) : (s.memWrite a v).run = s.run := rfl
@[simp] theorem memWrite_mem (a v : Word) : (s.memWrite a v).mem = Memory.write s.mem a.toNat v := rfl
@[simp] theorem memWrite_inq (a v : Word) : (s.memWrite a v).inq = s.inq := rfl
@[simp] theorem memWrite_out (a v : Word) : (s.memWrite a v).out = s.out := rfl
@[simp] theorem memWrite_held (a v : Word) : (s.memWrite a v).held = s.held := rfl
@[simp] theorem memWrite_env (a v : Word) : (s.memWrite a v).env = s.env := rfl
@[simp] theorem memWrite_later (a v : Word) : (s.memWrite a v).later = s.later := rfl
@[simp] theorem memWrite_cfg (a v : Word) : (s.memWrite a v).cfg = s.cfg := rfl

/-! `State.arrive` -/

@[simp] theorem arrive_x (cs : List Byte) : (s.arrive cs).x = s.x := rfl
@[simp] theorem arrive_pc (cs : List Byte) : (s.arrive cs).pc = s.pc := rfl
@[simp] theorem arrive_cond (cs : List Byte) : (s.arrive cs).cond = s.cond := rfl
@[simp] theorem arrive_run (cs : List Byte) : (s.arrive cs).run = s.run := rfl
@[simp] theorem arrive_mem (cs : List Byte) : (s.arrive cs).mem = s.mem := rfl
@[simp] theorem arrive_inq (cs : List Byte) : (s.arrive cs).inq = s.inq ++ cs := rfl
@[simp] theorem arrive_out (cs : List Byte) : (s.arrive cs).out = s.out := rfl
@[simp] theorem arrive_held (cs : List Byte) : (s.arrive cs).held = s.held := rfl
@[simp] theorem arrive_env (cs : List Byte) : (s.arrive cs).env = s.env := rfl
@[simp] theorem arrive_later (cs : List Byte) : (s.arrive cs).later = s.later := rfl
@[simp] theorem arrive_cfg (cs : List Byte) : (s.arrive cs).cfg = s.cfg := rfl

/-! `State.applyReset` -/

@[simp] theorem applyReset_x : s.applyReset.x = Vector.replicate 8 0#16 := rfl
@[simp] theorem applyReset_pc : s.applyReset.pc = s.cfg.pcStart := rfl
@[simp] theorem applyReset_cond : s.applyReset.cond = 0#3 := rfl
@[simp] theorem applyReset_run : s.applyReset.run = true := rfl
@[simp] theorem applyReset_mem : s.applyReset.mem = s.mem := rfl
@[simp] theorem applyReset_inq : s.applyReset.inq = s.inq := rfl
@[simp] theorem applyReset_out : s.applyReset.out = s.out := rfl
@[simp] theorem applyReset_held : s.applyReset.held = none := rfl
@[simp] theorem applyReset_env : s.applyReset.env = s.env := rfl
@[simp] theorem applyReset_later : s.applyReset.later = s.later := rfl
@[simp] theorem applyReset_cfg : s.applyReset.cfg = s.cfg := rfl

end Sys2Proof.Machine
end

