-- ==== Sys2Proof/Laws/Memory.lean ====
section
/-! SUPPORT. The laws of memory: a read after a write, and that a write keeps the canonical form. -/

namespace Sys2Proof.Machine

theorem Memory.read_insert (m : Memory) (k j : Nat) (v : Word) :
    Memory.read (Memory.insert m k v) j = if j = k then v else Memory.read m j := by
  induction m with
  | nil => rfl
  | cons c m ih =>
    simp only [Memory.insert]
    split
    · simp [Memory.read]
    · split
      · subst_vars
        simp only [Memory.read]
        split <;> simp_all
      · simp only [Memory.read, ih]
        split
        · rw [if_neg (by omega)]
        · rfl

theorem Memory.read_erase (m : Memory) (k j : Nat) :
    Memory.read (Memory.erase m k) j = if j = k then Memory.unlisted else Memory.read m j := by
  induction m with
  | nil => simp [Memory.erase, Memory.read]
  | cons c m ih =>
    simp only [Memory.erase]
    split
    · rw [ih]
      subst_vars
      simp only [Memory.read]
      split <;> simp_all
    · simp only [Memory.read, ih]
      split
      · rw [if_neg (by omega)]
      · rfl

/-- A read after a write: the value written at the same cell, the old value at every other. -/
theorem Memory.read_write (m : Memory) (k j : Nat) (v : Word) :
    Memory.read (Memory.write m k v) j = if j = k then v else Memory.read m j := by
  unfold Memory.write
  split
  · rw [Memory.read_erase]; simp_all
  · exact Memory.read_insert m k j v

/-- Rising from a bound is rising from every lower bound. -/
theorem Memory.wfFrom_mono {m : Memory} {lo lo' : Nat} (h : Memory.wfFrom lo m = true) (hle : lo' ≤ lo) :
    Memory.wfFrom lo' m = true := by
  cases m with
  | nil => rfl
  | cons c m => simp only [Memory.wfFrom, Bool.and_eq_true, decide_eq_true_eq] at h ⊢; exact ⟨⟨⟨by omega, h.1.1.2⟩, h.1.2⟩, h.2⟩

theorem Memory.wfFrom_erase {m : Memory} {lo : Nat} (k : Nat) (h : Memory.wfFrom lo m = true) :
    Memory.wfFrom lo (Memory.erase m k) = true := by
  induction m generalizing lo with
  | nil => rfl
  | cons c m ih =>
    simp only [Memory.wfFrom, Bool.and_eq_true, decide_eq_true_eq] at h
    simp only [Memory.erase]
    split
    · exact ih (Memory.wfFrom_mono h.2 (by omega))
    · simp only [Memory.wfFrom, Bool.and_eq_true, decide_eq_true_eq]
      exact ⟨h.1, ih h.2⟩

theorem Memory.wfFrom_insert {m : Memory} {lo k : Nat} {v : Word} (h : Memory.wfFrom lo m = true) (hlo : lo ≤ k)
    (hk : k < 65536) (hv : v ≠ Memory.unlisted) : Memory.wfFrom lo (Memory.insert m k v) = true := by
  have hv' : (v != Memory.unlisted) = true := by simpa using hv
  induction m generalizing lo with
  | nil => simp [Memory.insert, Memory.wfFrom, hlo, hk, hv]
  | cons c m ih =>
    simp only [Memory.wfFrom, Bool.and_eq_true, decide_eq_true_eq] at h
    obtain ⟨⟨⟨h1, h2⟩, h3⟩, h4⟩ := h
    simp only [Memory.insert]
    split
    · simp only [Memory.wfFrom, Bool.and_eq_true, decide_eq_true_eq]
      exact ⟨⟨⟨hlo, hk⟩, hv'⟩, ⟨⟨by omega, h2⟩, h3⟩, h4⟩
    · split
      · subst_vars
        simp only [Memory.wfFrom, Bool.and_eq_true, decide_eq_true_eq]
        exact ⟨⟨⟨hlo, hk⟩, hv'⟩, h4⟩
      · simp only [Memory.wfFrom, Bool.and_eq_true, decide_eq_true_eq]
        exact ⟨⟨⟨h1, h2⟩, h3⟩, ih h4 (by omega)⟩

/-- A write keeps the canonical form. -/
theorem Memory.wf_write {m : Memory} (h : Memory.wf m = true) (a v : Word) :
    Memory.wf (Memory.write m a.toNat v) = true := by
  unfold Memory.write
  split
  · exact Memory.wfFrom_erase _ h
  · exact Memory.wfFrom_insert h (Nat.zero_le _) a.isLt ‹_›

/-- A `MemWrite` keeps the canonical form. -/
theorem wf_memWrite (s : State) (a v : Word) (h : Memory.wf s.mem = true) : Memory.wf (s.memWrite a v).mem = true :=
  Memory.wf_write h a v

/-- A `RawRead` after a `MemWrite`. -/
theorem rawRead_memWrite (s : State) (a v b : Word) :
    (s.memWrite a v).rawRead b = if b = a then v else s.rawRead b := by
  simp only [State.rawRead, memWrite_mem, Memory.read_write, BitVec.toNat_inj]

@[simp] theorem rawRead_memWrite_self (s : State) (a v : Word) : (s.memWrite a v).rawRead a = v := by
  simp [rawRead_memWrite]

theorem rawRead_memWrite_of_ne (s : State) {a b : Word} (v : Word) (h : b ≠ a) :
    (s.memWrite a v).rawRead b = s.rawRead b := by
  simp [rawRead_memWrite, h]

/-- A `RawRead` looks at nothing but the memory. -/
theorem rawRead_congr {s t : State} (h : t.mem = s.mem) (a : Word) : t.rawRead a = s.rawRead a := by
  simp [State.rawRead, h]

end Sys2Proof.Machine
end

