-- ==== Sys2Proof/Laws/Registers.lean ====
section
/-! SUPPORT. Register reads after register writes, the flag updater, and what `x[DR] <- v; setcc(DR)` leaves. -/

namespace Sys2Proof.Machine

variable (s : State)

/-- A register read looks at nothing but the register file. -/
theorem reg_congr {s t : State} (h : t.x = s.x) (r : RegIdx) : t.reg r = s.reg r := by
  simp [State.reg, h]

@[simp] theorem reg_setReg_self (r : RegIdx) (v : Word) : (s.setReg r v).reg r = v := by
  simp [State.reg, State.setReg]

theorem reg_setReg (r q : RegIdx) (v : Word) : (s.setReg r v).reg q = if q = r then v else s.reg q := by
  by_cases h : q = r
  · subst h; simp
  · have : r.toNat ≠ q.toNat := fun e => h (BitVec.eq_of_toNat_eq e.symm)
    simp [State.reg, State.setReg, Vector.getElem_set_ne _ _ this, h]

theorem reg_setReg_of_ne {r q : RegIdx} (v : Word) (h : q ≠ r) : (s.setReg r v).reg q = s.reg q := by
  simp [reg_setReg, h]

@[simp] theorem reg_setPc (v : Word) (r : RegIdx) : (s.setPc v).reg r = s.reg r := rfl
@[simp] theorem reg_setCond (c : Cond) (r : RegIdx) : (s.setCond c).reg r = s.reg r := rfl
@[simp] theorem reg_setHeld (h : Option Held) (r : RegIdx) : (s.setHeld h).reg r = s.reg r := rfl
@[simp] theorem reg_outPut (bs : List Byte) (r : RegIdx) : (s.outPut bs).reg r = s.reg r := rfl
@[simp] theorem reg_memWrite (a v : Word) (r : RegIdx) : (s.memWrite a v).reg r = s.reg r := rfl
@[simp] theorem reg_stop (r : RegIdx) : s.stop.reg r = s.reg r := rfl
@[simp] theorem rawRead_setReg (r : RegIdx) (v a : Word) : (s.setReg r v).rawRead a = s.rawRead a := rfl
@[simp] theorem rawRead_setPc (v a : Word) : (s.setPc v).rawRead a = s.rawRead a := rfl
@[simp] theorem rawRead_setCond (c : Cond) (a : Word) : (s.setCond c).rawRead a = s.rawRead a := rfl
@[simp] theorem rawRead_setHeld (h : Option Held) (a : Word) : (s.setHeld h).rawRead a = s.rawRead a := rfl
@[simp] theorem rawRead_outPut (bs : List Byte) (a : Word) : (s.outPut bs).rawRead a = s.rawRead a := rfl
@[simp] theorem rawRead_stop (a : Word) : s.stop.rawRead a = s.rawRead a := rfl

/-- The three cases of the condition codes of a value. -/
theorem condOf_cases (v : Word) :
    (v.msb = true ∧ condOf v = condN) ∨ (v = 0#16 ∧ condOf v = condZ) ∨
      (v.msb = false ∧ v ≠ 0#16 ∧ condOf v = condP) := by
  unfold condOf
  by_cases h : v.msb = true
  · simp [h]
  · by_cases h0 : v = 0#16
    · subst h0; simp
    · simp [h, h0]

/-- `x[DR] <- v; setcc(DR)` is two field updates. -/
theorem writeResult_eq (dr : RegIdx) (v : Word) :
    s.writeResult dr v = (s.setReg dr v).setCond (condOf v) := by
  simp [State.writeResult, State.setcc]

@[simp] theorem writeResult_reg_self (dr : RegIdx) (v : Word) : (s.writeResult dr v).reg dr = v := by
  simp [writeResult_eq]
theorem writeResult_reg_of_ne {dr r : RegIdx} (v : Word) (h : r ≠ dr) : (s.writeResult dr v).reg r = s.reg r := by
  simp [writeResult_eq, reg_setReg_of_ne s v h]
@[simp] theorem writeResult_cond (dr : RegIdx) (v : Word) : (s.writeResult dr v).cond = condOf v := by
  simp [writeResult_eq]
@[simp] theorem writeResult_pc (dr : RegIdx) (v : Word) : (s.writeResult dr v).pc = s.pc := rfl
@[simp] theorem writeResult_run (dr : RegIdx) (v : Word) : (s.writeResult dr v).run = s.run := rfl
@[simp] theorem writeResult_mem (dr : RegIdx) (v : Word) : (s.writeResult dr v).mem = s.mem := rfl
@[simp] theorem writeResult_inq (dr : RegIdx) (v : Word) : (s.writeResult dr v).inq = s.inq := rfl
@[simp] theorem writeResult_out (dr : RegIdx) (v : Word) : (s.writeResult dr v).out = s.out := rfl
@[simp] theorem writeResult_held (dr : RegIdx) (v : Word) : (s.writeResult dr v).held = s.held := rfl
@[simp] theorem writeResult_env (dr : RegIdx) (v : Word) : (s.writeResult dr v).env = s.env := rfl
@[simp] theorem writeResult_later (dr : RegIdx) (v : Word) : (s.writeResult dr v).later = s.later := rfl
@[simp] theorem writeResult_cfg (dr : RegIdx) (v : Word) : (s.writeResult dr v).cfg = s.cfg := rfl

/-- Writes of two different registers commute. -/
theorem setReg_comm {r q : RegIdx} (v w : Word) (h : r ≠ q) :
    (s.setReg r v).setReg q w = (s.setReg q w).setReg r v := by
  have : r.toNat ≠ q.toNat := fun e => h (BitVec.eq_of_toNat_eq e)
  simp only [State.setReg]
  rw [Vector.set_comm _ _ this]

/-- Of two writes of one register the second stands. -/
@[simp] theorem setReg_setReg (r : RegIdx) (v w : Word) : (s.setReg r v).setReg r w = s.setReg r w := by
  simp [State.setReg]

/-- What the destination held before does not matter to the result. -/
theorem writeResult_setReg_self (r : RegIdx) (v w : Word) : (s.setReg r v).writeResult r w = s.writeResult r w := by
  simp only [writeResult_eq, setReg_setReg]

/-! A write of the condition codes: what it commutes with, and what overwrites it. -/

@[simp] theorem setCond_setCond (c d : Cond) : (s.setCond c).setCond d = s.setCond d := rfl

@[simp] theorem setCond_cond_self : s.setCond s.cond = s := rfl

/-- The flag updater replaces what stood in `cond` before. -/
theorem writeResult_setCond (c : Cond) (r : RegIdx) (v : Word) : (s.setCond c).writeResult r v = s.writeResult r v := by
  rw [writeResult_eq, writeResult_eq]
  rfl

theorem memWrite_setCond (c : Cond) (a v : Word) : (s.setCond c).memWrite a v = (s.memWrite a v).setCond c := rfl

/-- Whatever a state agrees with up to `cond`, it becomes by the right `cond`. -/
theorem setCond_of_eq_setCond {t u : State} {c : Cond} (h : t = u.setCond c) : t.setCond u.cond = u := by
  rw [h, setCond_setCond, setCond_cond_self]

end Sys2Proof.Machine
end

