-- ==== Sys2Proof/Laws/Access.lean ====
section
/-! SUPPORT. Everything a `MemRead` and a fetch can do: the keyboard poll of R32 and what it leaves unchanged. -/

namespace Sys2Proof.Machine

variable (s : State)

/-- A poll with no character waiting only clears the status cell. -/
theorem poll_of_empty (h : s.inq = []) : s.poll = s.memWrite s.cfg.kbsrAddr kbsrIdle := by
  simp [State.poll, State.inTake, h]

/-- A poll that finds a character takes it and writes both cells. -/
theorem poll_of_cons {c : Byte} {rest : List Byte} (h : s.inq = c :: rest) :
    s.poll = ({ s with inq := rest }.memWrite s.cfg.kbsrAddr kbsrReady).memWrite s.cfg.kbdrAddr (zext8 c) := by
  simp [State.poll, State.inTake, h]

/-- A poll changes nothing but the memory and the input queue. -/
theorem poll_frame : s.poll = { s with mem := s.poll.mem, inq := s.poll.inq } := by
  cases h : s.inq with
  | nil => rw [poll_of_empty s h]; rfl
  | cons c rest => rw [poll_of_cons s h]; rfl

theorem readEffect_of_ne {a : Word} (h : a ≠ s.cfg.kbsrAddr) : s.readEffect a = s := by
  simp [State.readEffect, h]

@[simp] theorem readEffect_kbsr : s.readEffect s.cfg.kbsrAddr = s.poll := by
  simp [State.readEffect]

theorem readValue_of_ne {a : Word} (h : a ≠ s.cfg.kbsrAddr) : s.readValue a = s.rawRead a := by
  simp [State.readValue, readEffect_of_ne s h]

/-- A `MemRead` changes nothing but the memory and the input queue. -/
theorem readEffect_frame (a : Word) :
    s.readEffect a = { s with mem := (s.readEffect a).mem, inq := (s.readEffect a).inq } := by
  unfold State.readEffect
  split
  · exact poll_frame s
  · rfl

@[simp] theorem readEffect_x (a : Word) : (s.readEffect a).x = s.x := by rw [readEffect_frame]
@[simp] theorem readEffect_pc (a : Word) : (s.readEffect a).pc = s.pc := by rw [readEffect_frame]
@[simp] theorem readEffect_cond (a : Word) : (s.readEffect a).cond = s.cond := by rw [readEffect_frame]
@[simp] theorem readEffect_run (a : Word) : (s.readEffect a).run = s.run := by rw [readEffect_frame]
@[simp] theorem readEffect_out (a : Word) : (s.readEffect a).out = s.out := by rw [readEffect_frame]
@[simp] theorem readEffect_held (a : Word) : (s.readEffect a).held = s.held := by rw [readEffect_frame]
@[simp] theorem readEffect_env (a : Word) : (s.readEffect a).env = s.env := by rw [readEffect_frame]
@[simp] theorem readEffect_later (a : Word) : (s.readEffect a).later = s.later := by rw [readEffect_frame]
@[simp] theorem readEffect_cfg (a : Word) : (s.readEffect a).cfg = s.cfg := by rw [readEffect_frame]
@[simp] theorem readEffect_reg (a : Word) (r : RegIdx) : (s.readEffect a).reg r = s.reg r := by
  simp [State.reg]

/-- A poll writes no cell but the two keyboard cells. -/
theorem rawRead_poll_of_ne {a : Word} (h1 : a ≠ s.cfg.kbsrAddr) (h2 : a ≠ s.cfg.kbdrAddr) :
    s.poll.rawRead a = s.rawRead a := by
  cases h : s.inq with
  | nil => rw [poll_of_empty s h, rawRead_memWrite_of_ne _ _ h1]
  | cons c rest =>
    rw [poll_of_cons s h, rawRead_memWrite_of_ne _ _ h2, rawRead_memWrite_of_ne _ _ h1]
    rfl

theorem rawRead_readEffect_of_ne (b : Word) {a : Word} (h1 : a ≠ s.cfg.kbsrAddr) (h2 : a ≠ s.cfg.kbdrAddr) :
    (s.readEffect b).rawRead a = s.rawRead a := by
  unfold State.readEffect
  split
  · exact rawRead_poll_of_ne s h1 h2
  · rfl

/-- A poll only takes the oldest character, or none. -/
theorem poll_inq : s.poll.inq = s.inq.tail := by
  cases h : s.inq with
  | nil => rw [poll_of_empty s h]; simp [h]
  | cons c rest => rw [poll_of_cons s h]; rfl

theorem readEffect_inq (a : Word) : (s.readEffect a).inq = s.inq ∨ (s.readEffect a).inq = s.inq.tail := by
  unfold State.readEffect
  split
  · exact .inr (poll_inq s)
  · exact .inl rfl

/-- A `MemRead` keeps the canonical form of memory. -/
theorem wf_readEffect (a : Word) (h : Memory.wf s.mem = true) : Memory.wf (s.readEffect a).mem = true := by
  unfold State.readEffect
  split
  · cases hq : s.inq with
    | nil => rw [poll_of_empty s hq]; exact wf_memWrite _ _ _ h
    | cons c rest => rw [poll_of_cons s hq]; exact wf_memWrite _ _ _ (wf_memWrite _ _ _ h)
  · exact h

/-- The value a read of KBSR_ADDR returns: ready or idle, as the poll leaves it (R33). -/
theorem readValue_kbsr (hv : s.cfg.valid = true) :
    s.readValue s.cfg.kbsrAddr = if s.inq = [] then kbsrIdle else kbsrReady := by
  have hne : s.cfg.kbsrAddr ≠ s.cfg.kbdrAddr := by simpa [Config.valid] using hv
  simp only [State.readValue, readEffect_kbsr]
  cases h : s.inq with
  | nil => rw [poll_of_empty s h]; simp
  | cons c rest => rw [poll_of_cons s h, rawRead_memWrite_of_ne _ _ hne]; simp

@[simp] theorem afterFetch_pc : s.afterFetch.pc = s.pc + 1#16 := rfl

/-- A fetch from any cell but KBSR reads the cell and does nothing but advance the program counter. -/
theorem fetch_of_ne (h : s.pc ≠ s.cfg.kbsrAddr) :
    s.fetchWord = s.rawRead s.pc ∧ s.afterFetch = s.setPc (s.pc + 1#16) := by
  exact ⟨readValue_of_ne s h, by simp [State.afterFetch, readEffect_of_ne s h]⟩

/-! A `MemRead` takes no notice of the condition codes and the general registers. -/

theorem poll_setCond (c : Cond) : (s.setCond c).poll = s.poll.setCond c := by
  cases h : s.inq with
  | nil => rw [poll_of_empty s h, poll_of_empty (s.setCond c) h]; rfl
  | cons d r => rw [poll_of_cons s h, poll_of_cons (s.setCond c) h]; rfl

theorem readEffect_setCond (c : Cond) (a : Word) : (s.setCond c).readEffect a = (s.readEffect a).setCond c := by
  unfold State.readEffect
  rw [poll_setCond]
  by_cases h : a = s.cfg.kbsrAddr <;> simp [h]

theorem readValue_setCond (c : Cond) (a : Word) : (s.setCond c).readValue a = s.readValue a := by
  unfold State.readValue
  rw [readEffect_setCond]
  rfl

theorem poll_setReg (r : RegIdx) (v : Word) : (s.setReg r v).poll = s.poll.setReg r v := by
  cases h : s.inq with
  | nil => rw [poll_of_empty s h, poll_of_empty (s.setReg r v) h]; rfl
  | cons d q => rw [poll_of_cons s h, poll_of_cons (s.setReg r v) h]; rfl

theorem readEffect_setReg (r : RegIdx) (v a : Word) : (s.setReg r v).readEffect a = (s.readEffect a).setReg r v := by
  unfold State.readEffect
  rw [poll_setReg]
  by_cases h : a = s.cfg.kbsrAddr <;> simp [h]

theorem readValue_setReg (r : RegIdx) (v a : Word) : (s.setReg r v).readValue a = s.readValue a := by
  unfold State.readValue
  rw [readEffect_setReg]
  rfl

end Sys2Proof.Machine
end

