-- ==== Sys2Proof/Laws/Decode.lean ====
section
/-! SUPPORT. What each format of R58 decodes to, for every value of its operand fields and of its ignored bits, and the opcode of
every canonical word. -/

namespace Sys2Proof

theorem decode_br (nzp : Cond) (o : BitVec 9) :
    decode (0x0#4 ++ nzp ++ o) = .br nzp o := by
  simp [decode, opField, drField, off9Field,
    BitVec.extractLsb'_append_eq_ite (v := 7) (w := 9), BitVec.extractLsb'_append_eq_ite (v := 4) (w := 3)]

theorem decode_addReg (dr sr1 sr2 : RegIdx) (g : BitVec 2) :
    decode (0x1#4 ++ dr ++ sr1 ++ 0#1 ++ g ++ sr2) = .addReg dr sr1 sr2 := by
  simp [decode, opField, drField, sr1Field, sr2Field, modeBit,
    BitVec.extractLsb'_append_eq_ite (v := 13) (w := 3), BitVec.extractLsb'_append_eq_ite (v := 11) (w := 2),
    BitVec.extractLsb'_append_eq_ite (v := 10) (w := 1), BitVec.extractLsb'_append_eq_ite (v := 7) (w := 3),
    BitVec.extractLsb'_append_eq_ite (v := 4) (w := 3)]

theorem decode_addImm (dr sr1 : RegIdx) (i : BitVec 5) :
    decode (0x1#4 ++ dr ++ sr1 ++ 1#1 ++ i) = .addImm dr sr1 i := by
  simp [decode, opField, drField, sr1Field, modeBit, imm5Field,
    BitVec.extractLsb'_append_eq_ite (v := 11) (w := 5), BitVec.extractLsb'_append_eq_ite (v := 10) (w := 1),
    BitVec.extractLsb'_append_eq_ite (v := 7) (w := 3), BitVec.extractLsb'_append_eq_ite (v := 4) (w := 3)]

theorem decode_ld (dr : RegIdx) (o : BitVec 9) :
    decode (0x2#4 ++ dr ++ o) = .ld dr o := by
  simp [decode, opField, drField, off9Field,
    BitVec.extractLsb'_append_eq_ite (v := 7) (w := 9), BitVec.extractLsb'_append_eq_ite (v := 4) (w := 3)]

theorem decode_st (sr : RegIdx) (o : BitVec 9) :
    decode (0x3#4 ++ sr ++ o) = .st sr o := by
  simp [decode, opField, drField, off9Field,
    BitVec.extractLsb'_append_eq_ite (v := 7) (w := 9), BitVec.extractLsb'_append_eq_ite (v := 4) (w := 3)]

theorem decode_jsr (o : BitVec 11) :
    decode (0x4#4 ++ 1#1 ++ o) = .jsr o := by
  simp [decode, opField, linkBit, off11Field,
    BitVec.extractLsb'_append_eq_ite (v := 5) (w := 11)]

theorem decode_jsrr (b : RegIdx) (g : BitVec 2) (h : BitVec 6) :
    decode (0x4#4 ++ 0#1 ++ g ++ b ++ h) = .jsrr b := by
  simp [decode, opField, linkBit, sr1Field,
    BitVec.extractLsb'_append_eq_ite (v := 10) (w := 6), BitVec.extractLsb'_append_eq_ite (v := 7) (w := 3),
    BitVec.extractLsb'_append_eq_ite (v := 5) (w := 2)]

theorem decode_andReg (dr sr1 sr2 : RegIdx) (g : BitVec 2) :
    decode (0x5#4 ++ dr ++ sr1 ++ 0#1 ++ g ++ sr2) = .andReg dr sr1 sr2 := by
  simp [decode, opField, drField, sr1Field, sr2Field, modeBit,
    BitVec.extractLsb'_append_eq_ite (v := 13) (w := 3), BitVec.extractLsb'_append_eq_ite (v := 11) (w := 2),
    BitVec.extractLsb'_append_eq_ite (v := 10) (w := 1), BitVec.extractLsb'_append_eq_ite (v := 7) (w := 3),
    BitVec.extractLsb'_append_eq_ite (v := 4) (w := 3)]

theorem decode_andImm (dr sr1 : RegIdx) (i : BitVec 5) :
    decode (0x5#4 ++ dr ++ sr1 ++ 1#1 ++ i) = .andImm dr sr1 i := by
  simp [decode, opField, drField, sr1Field, modeBit, imm5Field,
    BitVec.extractLsb'_append_eq_ite (v := 11) (w := 5), BitVec.extractLsb'_append_eq_ite (v := 10) (w := 1),
    BitVec.extractLsb'_append_eq_ite (v := 7) (w := 3), BitVec.extractLsb'_append_eq_ite (v := 4) (w := 3)]

theorem decode_ldr (dr b : RegIdx) (o : BitVec 6) :
    decode (0x6#4 ++ dr ++ b ++ o) = .ldr dr b o := by
  simp [decode, opField, drField, sr1Field, off6Field,
    BitVec.extractLsb'_append_eq_ite (v := 10) (w := 6), BitVec.extractLsb'_append_eq_ite (v := 7) (w := 3),
    BitVec.extractLsb'_append_eq_ite (v := 4) (w := 3)]

theorem decode_str (sr b : RegIdx) (o : BitVec 6) :
    decode (0x7#4 ++ sr ++ b ++ o) = .str sr b o := by
  simp [decode, opField, drField, sr1Field, off6Field,
    BitVec.extractLsb'_append_eq_ite (v := 10) (w := 6), BitVec.extractLsb'_append_eq_ite (v := 7) (w := 3),
    BitVec.extractLsb'_append_eq_ite (v := 4) (w := 3)]

theorem decode_rti (g : BitVec 12) :
    decode (0x8#4 ++ g) = .rti := by
  simp [decode, opField,
    BitVec.extractLsb'_append_eq_ite (v := 4) (w := 12)]

theorem decode_not (dr sr : RegIdx) (g : BitVec 6) :
    decode (0x9#4 ++ dr ++ sr ++ g) = .not dr sr := by
  simp [decode, opField, drField, sr1Field,
    BitVec.extractLsb'_append_eq_ite (v := 10) (w := 6), BitVec.extractLsb'_append_eq_ite (v := 7) (w := 3),
    BitVec.extractLsb'_append_eq_ite (v := 4) (w := 3)]

theorem decode_ldi (dr : RegIdx) (o : BitVec 9) :
    decode (0xA#4 ++ dr ++ o) = .ldi dr o := by
  simp [decode, opField, drField, off9Field,
    BitVec.extractLsb'_append_eq_ite (v := 7) (w := 9), BitVec.extractLsb'_append_eq_ite (v := 4) (w := 3)]

theorem decode_sti (sr : RegIdx) (o : BitVec 9) :
    decode (0xB#4 ++ sr ++ o) = .sti sr o := by
  simp [decode, opField, drField, off9Field,
    BitVec.extractLsb'_append_eq_ite (v := 7) (w := 9), BitVec.extractLsb'_append_eq_ite (v := 4) (w := 3)]

theorem decode_jmp (b : RegIdx) (g : BitVec 3) (h : BitVec 6) :
    decode (0xC#4 ++ g ++ b ++ h) = decodeJmp b := by
  simp [decode, opField, sr1Field,
    BitVec.extractLsb'_append_eq_ite (v := 10) (w := 6), BitVec.extractLsb'_append_eq_ite (v := 7) (w := 3),
    BitVec.extractLsb'_append_eq_ite (v := 4) (w := 3)]

theorem decode_res (g : BitVec 12) :
    decode (0xD#4 ++ g) = .res := by
  simp [decode, opField,
    BitVec.extractLsb'_append_eq_ite (v := 4) (w := 12)]

theorem decode_lea (dr : RegIdx) (o : BitVec 9) :
    decode (0xE#4 ++ dr ++ o) = .lea dr o := by
  simp [decode, opField, drField, off9Field,
    BitVec.extractLsb'_append_eq_ite (v := 7) (w := 9), BitVec.extractLsb'_append_eq_ite (v := 4) (w := 3)]

theorem decode_trap (v : BitVec 8) (g : BitVec 4) :
    decode (0xF#4 ++ g ++ v) = decodeTrap v := by
  simp [decode, opField, vectField,
    BitVec.extractLsb'_append_eq_ite (v := 8) (w := 8), BitVec.extractLsb'_append_eq_ite (v := 4) (w := 4)]

/-- The decoder gives well-formed terms only. -/
theorem decodeJmp_wf (b : RegIdx) : (decodeJmp b).wf = true := by
  unfold decodeJmp
  split
  · rfl
  · simpa [Instr.wf] using ‹_›

theorem decodeTrap_wf (v : BitVec 8) : (decodeTrap v).wf = true := by
  revert v
  decide

theorem decode_wf (w : Word) : (decode w).wf = true := by
  unfold decode
  split <;> first | rfl | exact decodeJmp_wf _ | exact decodeTrap_wf _ | (split <;> rfl)

/-- Where the term is well formed, the refining rows are the only other readings. -/
theorem decodeJmp_of_wf {b : RegIdx} (h : (Instr.jmp b).wf = true) : decodeJmp b = .jmp b := by
  simp [Instr.wf] at h
  simp [decodeJmp, h]

theorem decodeTrap_of_wf {v : BitVec 8} (h : (Instr.trap v).wf = true) : decodeTrap v = .trap v := by
  revert v
  decide

/-! Decoding by opcode (R57, R64): what any word with a given OP field decodes to. -/

theorem decode_op0 {w : Word} (h : opField w = 0x0#4) :
    decode w = .br (drField w) (off9Field w) := by simp [decode, h]

theorem decode_op1 {w : Word} (h : opField w = 0x1#4) :
    decode w = if modeBit w = 0#1 then .addReg (drField w) (sr1Field w) (sr2Field w)
      else .addImm (drField w) (sr1Field w) (imm5Field w) := by simp [decode, h]

theorem decode_op2 {w : Word} (h : opField w = 0x2#4) :
    decode w = .ld (drField w) (off9Field w) := by simp [decode, h]

theorem decode_op3 {w : Word} (h : opField w = 0x3#4) :
    decode w = .st (drField w) (off9Field w) := by simp [decode, h]

theorem decode_op4 {w : Word} (h : opField w = 0x4#4) :
    decode w = if linkBit w = 1#1 then .jsr (off11Field w) else .jsrr (sr1Field w) := by simp [decode, h]

theorem decode_op5 {w : Word} (h : opField w = 0x5#4) :
    decode w = if modeBit w = 0#1 then .andReg (drField w) (sr1Field w) (sr2Field w)
      else .andImm (drField w) (sr1Field w) (imm5Field w) := by simp [decode, h]

theorem decode_op6 {w : Word} (h : opField w = 0x6#4) :
    decode w = .ldr (drField w) (sr1Field w) (off6Field w) := by simp [decode, h]

theorem decode_op7 {w : Word} (h : opField w = 0x7#4) :
    decode w = .str (drField w) (sr1Field w) (off6Field w) := by simp [decode, h]

theorem decode_op8 {w : Word} (h : opField w = 0x8#4) :
    decode w = .rti := by simp [decode, h]

theorem decode_op9 {w : Word} (h : opField w = 0x9#4) :
    decode w = .not (drField w) (sr1Field w) := by simp [decode, h]

theorem decode_opA {w : Word} (h : opField w = 0xA#4) :
    decode w = .ldi (drField w) (off9Field w) := by simp [decode, h]

theorem decode_opB {w : Word} (h : opField w = 0xB#4) :
    decode w = .sti (drField w) (off9Field w) := by simp [decode, h]

theorem decode_opC {w : Word} (h : opField w = 0xC#4) :
    decode w = decodeJmp (sr1Field w) := by simp [decode, h]

theorem decode_opD {w : Word} (h : opField w = 0xD#4) :
    decode w = .res := by simp [decode, h]

theorem decode_opE {w : Word} (h : opField w = 0xE#4) :
    decode w = .lea (drField w) (off9Field w) := by simp [decode, h]

theorem decode_opF {w : Word} (h : opField w = 0xF#4) :
    decode w = decodeTrap (vectField w) := by simp [decode, h]

/-- Two words that agree outside a mask have every field in common that the mask does not touch. -/
theorem field_eq_of_masked {w e m : Word} (h : w &&& ~~~m = e &&& ~~~m) (k n : Nat) (hm : m.extractLsb' k n = 0#n) :
    w.extractLsb' k n = e.extractLsb' k n := by
  apply BitVec.eq_of_getLsbD_eq
  intro i hi
  have h1 := congrArg (fun v => BitVec.getLsbD v (k + i)) h
  have h2 := congrArg (fun v => BitVec.getLsbD v i) hm
  simp only [BitVec.getLsbD_extractLsb', BitVec.getLsbD_and, BitVec.getLsbD_not, hi, decide_true, Bool.true_and,
    BitVec.getLsbD_zero] at h1 h2 ⊢
  by_cases hk : k + i < 16
  · rw [h2] at h1
    simpa [hk] using h1
  · simp [BitVec.getLsbD_of_ge _ _ (Nat.le_of_not_lt hk)]

end Sys2Proof
end

