-- ==== Sys2Proof/Laws/Trap.lean ====
section
/-! SUPPORT. What the TRAP routines can do: the wait of GETC and IN, and the string walk of PUTS and PUTSP. -/

namespace Sys2Proof.Machine

variable (s : State)

theorem getc_of_empty (h : s.inq = []) : s.getc = s.setHeld (some .getc) := by
  simp [State.getc, State.inTake, h]

theorem getc_of_cons {c : Byte} {rest : List Byte} (h : s.inq = c :: rest) :
    s.getc = ({ s with inq := rest }.setReg 0#3 (zext8 c)).setHeld none := by
  simp [State.getc, State.inTake, h]

theorem finishIn_of_empty (h : s.inq = []) : s.finishIn = s.setHeld (some .inp) := by
  simp [State.finishIn, State.inTake, h]

theorem finishIn_of_cons {c : Byte} {rest : List Byte} (h : s.inq = c :: rest) :
    s.finishIn = (({ s with inq := rest }.setReg 0#3 (zext8 c)).outPut [c]).setHeld none := by
  simp [State.finishIn, State.inTake, h]

/-- What `getc` can change. -/
theorem getc_frame : s.getc = { s with x := s.getc.x, inq := s.getc.inq, held := s.getc.held } := by
  cases h : s.inq with
  | nil => rw [getc_of_empty s h]; rfl
  | cons c rest => rw [getc_of_cons s h]; rfl

@[simp] theorem getc_pc : s.getc.pc = s.pc := by rw [getc_frame]
@[simp] theorem getc_cond : s.getc.cond = s.cond := by rw [getc_frame]
@[simp] theorem getc_run : s.getc.run = s.run := by rw [getc_frame]
@[simp] theorem getc_mem : s.getc.mem = s.mem := by rw [getc_frame]
@[simp] theorem getc_out : s.getc.out = s.out := by rw [getc_frame]
@[simp] theorem getc_env : s.getc.env = s.env := by rw [getc_frame]
@[simp] theorem getc_later : s.getc.later = s.later := by rw [getc_frame]
@[simp] theorem getc_cfg : s.getc.cfg = s.cfg := by rw [getc_frame]

/-- `getc` writes no register but R0. -/
theorem getc_reg_of_ne {r : RegIdx} (hr : r ≠ 0#3) : s.getc.reg r = s.reg r := by
  cases h : s.inq with
  | nil => rw [getc_of_empty s h]; rfl
  | cons c rest =>
    rw [getc_of_cons s h]
    simp only [reg_setHeld, reg_setReg_of_ne _ _ hr]
    rfl

/-- `getc` takes the oldest character, or none. -/
theorem getc_inq : s.getc.inq = s.inq.tail := by
  cases h : s.inq with
  | nil => rw [getc_of_empty s h]; simp [h]
  | cons c rest => rw [getc_of_cons s h]; rfl

/-- What `finishIn` can change. -/
theorem finishIn_frame : s.finishIn = { s with x := s.finishIn.x, inq := s.finishIn.inq, out := s.finishIn.out, held := s.finishIn.held } := by
  cases h : s.inq with
  | nil => rw [finishIn_of_empty s h]; rfl
  | cons c rest => rw [finishIn_of_cons s h]; rfl

@[simp] theorem finishIn_pc : s.finishIn.pc = s.pc := by rw [finishIn_frame]
@[simp] theorem finishIn_cond : s.finishIn.cond = s.cond := by rw [finishIn_frame]
@[simp] theorem finishIn_run : s.finishIn.run = s.run := by rw [finishIn_frame]
@[simp] theorem finishIn_mem : s.finishIn.mem = s.mem := by rw [finishIn_frame]
@[simp] theorem finishIn_env : s.finishIn.env = s.env := by rw [finishIn_frame]
@[simp] theorem finishIn_later : s.finishIn.later = s.later := by rw [finishIn_frame]
@[simp] theorem finishIn_cfg : s.finishIn.cfg = s.cfg := by rw [finishIn_frame]

/-- `finishIn` writes no register but R0. -/
theorem finishIn_reg_of_ne {r : RegIdx} (hr : r ≠ 0#3) : s.finishIn.reg r = s.reg r := by
  cases h : s.inq with
  | nil => rw [finishIn_of_empty s h]; rfl
  | cons c rest =>
    rw [finishIn_of_cons s h]
    simp only [reg_setHeld, reg_outPut, reg_setReg_of_ne _ _ hr]
    rfl

/-- `finishIn` takes the oldest character, or none. -/
theorem finishIn_inq : s.finishIn.inq = s.inq.tail := by
  cases h : s.inq with
  | nil => rw [finishIn_of_empty s h]; simp [h]
  | cons c rest => rw [finishIn_of_cons s h]; rfl

/-- A lap changes nothing but the output and `held`. (Rewrite with this lemma: no proof should compare two laps by unfolding
`walkString`, whose fuel is 65536.) -/
theorem lap_eq (chars : Word → List Byte) (h : Held) :
    s.lap chars h =
      (s.outPut (walkString chars s.mem 65536 (s.reg 0#3)).1).setHeld
        (if (walkString chars s.mem 65536 (s.reg 0#3)).2 then none else some h) := rfl

@[simp] theorem lap_out (chars : Word → List Byte) (h : Held) :
    (s.lap chars h).out = s.out ++ (walkString chars s.mem 65536 (s.reg 0#3)).1 := rfl

@[simp] theorem lap_held (chars : Word → List Byte) (h : Held) :
    (s.lap chars h).held = if (walkString chars s.mem 65536 (s.reg 0#3)).2 then none else some h := rfl

/-! What each routine leaves unchanged. -/

@[simp] theorem outChar_x : s.outChar.x = s.x := rfl
@[simp] theorem outChar_pc : s.outChar.pc = s.pc := rfl
@[simp] theorem outChar_cond : s.outChar.cond = s.cond := rfl
@[simp] theorem outChar_run : s.outChar.run = s.run := rfl
@[simp] theorem outChar_mem : s.outChar.mem = s.mem := rfl
@[simp] theorem outChar_inq : s.outChar.inq = s.inq := rfl
@[simp] theorem outChar_held : s.outChar.held = s.held := rfl
@[simp] theorem outChar_env : s.outChar.env = s.env := rfl
@[simp] theorem outChar_later : s.outChar.later = s.later := rfl
@[simp] theorem outChar_cfg : s.outChar.cfg = s.cfg := rfl
@[simp] theorem puts_x : s.puts.x = s.x := rfl
@[simp] theorem puts_pc : s.puts.pc = s.pc := rfl
@[simp] theorem puts_cond : s.puts.cond = s.cond := rfl
@[simp] theorem puts_run : s.puts.run = s.run := rfl
@[simp] theorem puts_mem : s.puts.mem = s.mem := rfl
@[simp] theorem puts_inq : s.puts.inq = s.inq := rfl
@[simp] theorem puts_env : s.puts.env = s.env := rfl
@[simp] theorem puts_later : s.puts.later = s.later := rfl
@[simp] theorem puts_cfg : s.puts.cfg = s.cfg := rfl
@[simp] theorem putsp_x : s.putsp.x = s.x := rfl
@[simp] theorem putsp_pc : s.putsp.pc = s.pc := rfl
@[simp] theorem putsp_cond : s.putsp.cond = s.cond := rfl
@[simp] theorem putsp_run : s.putsp.run = s.run := rfl
@[simp] theorem putsp_mem : s.putsp.mem = s.mem := rfl
@[simp] theorem putsp_inq : s.putsp.inq = s.inq := rfl
@[simp] theorem putsp_env : s.putsp.env = s.env := rfl
@[simp] theorem putsp_later : s.putsp.later = s.later := rfl
@[simp] theorem putsp_cfg : s.putsp.cfg = s.cfg := rfl
@[simp] theorem halt_x : s.halt.x = s.x := rfl
@[simp] theorem halt_pc : s.halt.pc = s.pc := rfl
@[simp] theorem halt_cond : s.halt.cond = s.cond := rfl
@[simp] theorem halt_mem : s.halt.mem = s.mem := rfl
@[simp] theorem halt_inq : s.halt.inq = s.inq := rfl
@[simp] theorem halt_held : s.halt.held = s.held := rfl
@[simp] theorem halt_env : s.halt.env = s.env := rfl
@[simp] theorem halt_later : s.halt.later = s.later := rfl
@[simp] theorem halt_cfg : s.halt.cfg = s.cfg := rfl
@[simp] theorem promptIn_pc : s.promptIn.pc = s.pc := by simp [State.promptIn]
@[simp] theorem promptIn_cond : s.promptIn.cond = s.cond := by simp [State.promptIn]
@[simp] theorem promptIn_run : s.promptIn.run = s.run := by simp [State.promptIn]
@[simp] theorem promptIn_mem : s.promptIn.mem = s.mem := by simp [State.promptIn]
@[simp] theorem promptIn_env : s.promptIn.env = s.env := by simp [State.promptIn]
@[simp] theorem promptIn_later : s.promptIn.later = s.later := by simp [State.promptIn]
@[simp] theorem promptIn_cfg : s.promptIn.cfg = s.cfg := by simp [State.promptIn]

/-- A walk over a string that fits in its fuel outputs the string and stops at the zero cell. -/
theorem walkString_of_string (chars : Word → List Byte) (ws : List Word) :
    ∀ (fuel : Nat) (a : Word), ws.length < fuel → StringAt s a ws →
      walkString chars s.mem fuel a = (ws.flatMap chars, true) := by
  induction ws with
  | nil =>
    intro fuel a hf h
    obtain ⟨n, rfl⟩ : ∃ n, fuel = n + 1 := ⟨fuel - 1, by simp at hf; omega⟩
    have h : Memory.read s.mem a.toNat = 0#16 := h
    simp [walkString, h]
  | cons w ws ih =>
    intro fuel a hf h
    obtain ⟨n, rfl⟩ : ∃ n, fuel = n + 1 := ⟨fuel - 1, by omega⟩
    obtain ⟨h1, h2, h3⟩ := h
    have h1 : Memory.read s.mem a.toNat = w := h1
    simp only [walkString, h1, h2, if_false, ih n (a + 1#16) (by simpa using hf) h3, List.flatMap_cons]

/-- A walk over a memory with no zero cell never stops: it outputs one cell after another for as long as its fuel lasts. -/
theorem walkString_of_noZero (chars : Word → List Byte) (h : NoZeroCell s) (fuel : Nat) :
    ∀ a : Word, walkString chars s.mem fuel a =
      ((List.range fuel).flatMap (fun k => chars (s.rawRead (a + BitVec.ofNat 16 k))), false) := by
  induction fuel with
  | zero => intro a; rfl
  | succ n ih =>
    intro a
    have ha : Memory.read s.mem a.toNat ≠ 0#16 := h a
    simp only [walkString, ha, if_false, ih, List.range_succ_eq_map, List.flatMap_cons, List.flatMap_map]
    have e : ∀ k : Nat, a + 1#16 + BitVec.ofNat 16 k = a + BitVec.ofNat 16 (k + 1) := by
      intro k
      rw [BitVec.add_assoc]
      congr 1
      rw [Nat.add_comm k 1]
      exact (BitVec.ofNat_add 1 k).symm
    simp only [e, Nat.succ_eq_add_one]
    simp [State.rawRead]

/-! The routines take no notice of the condition codes, nor of a register other than R0. -/

theorem getc_setCond (c : Cond) : (s.setCond c).getc = s.getc.setCond c := by
  cases h : s.inq with
  | nil => rw [getc_of_empty s h, getc_of_empty (s.setCond c) h]; rfl
  | cons d r => rw [getc_of_cons s h, getc_of_cons (s.setCond c) h]; rfl

theorem finishIn_setCond (c : Cond) : (s.setCond c).finishIn = s.finishIn.setCond c := by
  cases h : s.inq with
  | nil => rw [finishIn_of_empty s h, finishIn_of_empty (s.setCond c) h]; rfl
  | cons d r => rw [finishIn_of_cons s h, finishIn_of_cons (s.setCond c) h]; rfl

theorem lap_setCond (c : Cond) (chars : Word → List Byte) (h : Held) :
    (s.setCond c).lap chars h = (s.lap chars h).setCond c := by
  rw [lap_eq, lap_eq]
  rfl

theorem getc_setReg {r : RegIdx} (v : Word) (h : r ≠ 0#3) : (s.setReg r v).getc = s.getc.setReg r v := by
  cases hq : s.inq with
  | nil => rw [getc_of_empty s hq, getc_of_empty (s.setReg r v) hq]; rfl
  | cons d t =>
    rw [getc_of_cons s hq, getc_of_cons (s.setReg r v) hq]
    exact congrArg (fun x : State => x.setHeld none) (setReg_comm { s with inq := t } _ _ h)

theorem finishIn_setReg {r : RegIdx} (v : Word) (h : r ≠ 0#3) : (s.setReg r v).finishIn = s.finishIn.setReg r v := by
  cases hq : s.inq with
  | nil => rw [finishIn_of_empty s hq, finishIn_of_empty (s.setReg r v) hq]; rfl
  | cons d t =>
    rw [finishIn_of_cons s hq, finishIn_of_cons (s.setReg r v) hq]
    exact congrArg (fun x : State => (x.outPut [d]).setHeld none) (setReg_comm { s with inq := t } _ _ h)

theorem lap_setReg {r : RegIdx} (v : Word) (h : r ≠ 0#3) (chars : Word → List Byte) (hd : Held) :
    (s.setReg r v).lap chars hd = (s.lap chars hd).setReg r v := by
  rw [lap_eq, lap_eq, reg_setReg_of_ne _ _ h.symm]
  rfl

/-! The two bytes of a cell, and strings. -/

theorem lowByte_eq (w : Word) : lowByte w = w.setWidth 8 := by
  unfold lowByte
  ext i
  simp

theorem highByte_eq (w : Word) : highByte w = (w >>> 8).setWidth 8 := by
  unfold highByte
  ext i
  simp

/-- Where a string stands: none of its cells is zero and the cell after it is. -/
theorem stringAt_cells (ws : List Word) : ∀ a : Word, StringAt s a ws →
    (∀ k < ws.length, s.rawRead (a + BitVec.ofNat 16 k) ≠ 0#16) ∧ s.rawRead (a + BitVec.ofNat 16 ws.length) = 0#16 := by
  induction ws with
  | nil => intro a h; simpa [StringAt] using h
  | cons w ws ih =>
    intro a h
    obtain ⟨h1, h2, h3⟩ := h
    obtain ⟨i1, i2⟩ := ih _ h3
    have e : ∀ k, a + BitVec.ofNat 16 (k + 1) = a + 1#16 + BitVec.ofNat 16 k := by
      intro k
      rw [BitVec.add_assoc]
      congr 1
      rw [Nat.add_comm]
      exact BitVec.ofNat_add 1 k
    refine ⟨?_, ?_⟩
    · intro k hk
      cases k with
      | zero => simpa [h1] using h2
      | succ k => rw [e]; exact i1 k (by simpa using hk)
    · simp only [List.length_cons]
      rw [e]
      exact i2

/-- A string is shorter than the memory: it ends at a zero cell within one lap. -/
theorem stringAt_length (ws : List Word) (a : Word) (h : StringAt s a ws) : ws.length < 65536 := by
  obtain ⟨h1, h2⟩ := stringAt_cells s ws a h
  by_contra hc
  have e : BitVec.ofNat 16 (ws.length - 65536) = BitVec.ofNat 16 ws.length := by
    apply BitVec.eq_of_toNat_eq
    rw [BitVec.toNat_ofNat, BitVec.toNat_ofNat]
    omega
  apply h1 (ws.length - 65536) (by omega)
  rw [e]
  exact h2

end Sys2Proof.Machine
end

