-- ==== Sys2Proof/Laws/Exec.lean ====
section
/-! SUPPORT. Everything `exec` can answer: a next state, always, and which one. -/

namespace Sys2Proof.Machine

/-- The state `exec` answers for each instruction. -/
def nextState (i : Instr) (s : State) : State :=
  match i with
  | .br nzp off9 => if nzp &&& s.cond ≠ 0#3 then s.setPc (s.pcRel off9) else s
  | .addReg dr sr1 sr2 => s.writeResult dr (s.reg sr1 + s.reg sr2)
  | .addImm dr sr1 imm5 => s.writeResult dr (s.reg sr1 + sext imm5)
  | .ld dr off9 => s.load dr (s.pcRel off9)
  | .st sr off9 => s.memWrite (s.pcRel off9) (s.reg sr)
  | .jsr off11 => s.link.setPc (s.pcRel off11)
  | .jsrr baseR => s.link.jumpReg baseR
  | .andReg dr sr1 sr2 => s.writeResult dr (s.reg sr1 &&& s.reg sr2)
  | .andImm dr sr1 imm5 => s.writeResult dr (s.reg sr1 &&& sext imm5)
  | .ldr dr baseR off6 => s.load dr (s.baseOff baseR off6)
  | .str sr baseR off6 => s.memWrite (s.baseOff baseR off6) (s.reg sr)
  | .rti => s
  | .not dr sr => s.writeResult dr (~~~ s.reg sr)
  | .ldi dr off9 => (s.readEffect (s.pcRel off9)).load dr (s.readValue (s.pcRel off9))
  | .sti sr off9 => (s.readEffect (s.pcRel off9)).memWrite (s.readValue (s.pcRel off9)) (s.reg sr)
  | .jmp baseR => s.jumpReg baseR
  | .res => s
  | .lea dr off9 => s.writeResult dr (s.pcRel off9)
  | .trap v =>
    if v = 0x20#8 then s.getc
    else if v = 0x21#8 then s.outChar
    else if v = 0x22#8 then s.puts
    else if v = 0x23#8 then s.promptIn
    else if v = 0x24#8 then s.putsp
    else if v = 0x25#8 then s.halt
    else s
  | .trapGetc => s.getc
  | .trapOut => s.outChar
  | .trapPuts => s.puts
  | .trapIn => s.promptIn
  | .trapPutsp => s.putsp
  | .trapHalt => s.halt
  | .ret => s.jumpReg 7#3

/-- `exec` answers a next state, always. -/
theorem exec_eq (i : Instr) (s : State) : exec i s = .next (nextState i s) := by
  cases i <;> rfl

/-- The one state an answer can hold. -/
theorem eq_nextState {i : Instr} {s t : State} (h : exec i s = .next t) : t = nextState i s := by
  rw [exec_eq] at h
  cases h
  rfl

/-- The vectors of TRAP: each of the six service vectors does what the service's own constructor does, and every other does
nothing. -/
theorem trap_cases (v : BitVec 8) :
    (v = 0x20#8 ∧ ∀ s, exec (.trap v) s = exec .trapGetc s) ∨ (v = 0x21#8 ∧ ∀ s, exec (.trap v) s = exec .trapOut s) ∨
    (v = 0x22#8 ∧ ∀ s, exec (.trap v) s = exec .trapPuts s) ∨ (v = 0x23#8 ∧ ∀ s, exec (.trap v) s = exec .trapIn s) ∨
    (v = 0x24#8 ∧ ∀ s, exec (.trap v) s = exec .trapPutsp s) ∨ (v = 0x25#8 ∧ ∀ s, exec (.trap v) s = exec .trapHalt s) ∨
    (isServiceVector v = false ∧ ∀ s, exec (.trap v) s = .next s) := by
  by_cases h0 : v = 0x20#8
  · exact .inl ⟨h0, fun s => by simp [exec_eq, nextState, h0]⟩
  by_cases h1 : v = 0x21#8
  · exact .inr (.inl ⟨h1, fun s => by simp [exec_eq, nextState, h1]⟩)
  by_cases h2 : v = 0x22#8
  · exact .inr (.inr (.inl ⟨h2, fun s => by simp [exec_eq, nextState, h2]⟩))
  by_cases h3 : v = 0x23#8
  · exact .inr (.inr (.inr (.inl ⟨h3, fun s => by simp [exec_eq, nextState, h3]⟩)))
  by_cases h4 : v = 0x24#8
  · exact .inr (.inr (.inr (.inr (.inl ⟨h4, fun s => by simp [exec_eq, nextState, h4]⟩))))
  by_cases h5 : v = 0x25#8
  · exact .inr (.inr (.inr (.inr (.inr (.inl ⟨h5, fun s => by simp [exec_eq, nextState, h5]⟩)))))
  · refine .inr (.inr (.inr (.inr (.inr (.inr ⟨?_, fun s => by simp [exec_eq, nextState, h0, h1, h2, h3, h4, h5]⟩)))))
    have hall : ∀ u : BitVec 8, isServiceVector u = true →
        u = 0x20#8 ∨ u = 0x21#8 ∨ u = 0x22#8 ∨ u = 0x23#8 ∨ u = 0x24#8 ∨ u = 0x25#8 := by decide
    by_contra hv
    rcases hall v (by simpa using hv) with h | h | h | h | h | h
    · exact h0 h
    · exact h1 h
    · exact h2 h
    · exact h3 h
    · exact h4 h
    · exact h5 h

end Sys2Proof.Machine
end

