-- ==== Sys2Proof/Laws/PerInstr.lean ====
section
/-! SUPPORT. One family of statements about every instruction as syntax: the opcode bits of its canonical word are the opcode the
map of R57 gives it. -/

namespace Sys2Proof

/-- Bits 15:12 of the canonical word are the instruction's opcode (R55, R57). -/
def Laws.EncodeOpcode.Statement (i : Instr) : Prop := opField (encode i) = i.opcode

theorem Laws.EncodeOpcode.br (nzp : Cond) (o : BitVec 9) :
    Laws.EncodeOpcode.Statement (.br nzp o) := by
  simp [Laws.EncodeOpcode.Statement, encode, opField, Instr.opcode,
    BitVec.extractLsb'_append_eq_ite (v := 7) (w := 9), BitVec.extractLsb'_append_eq_ite (v := 4) (w := 3)]

theorem Laws.EncodeOpcode.addReg (dr sr1 sr2 : RegIdx) :
    Laws.EncodeOpcode.Statement (.addReg dr sr1 sr2) := by
  simp [Laws.EncodeOpcode.Statement, encode, opField, Instr.opcode,
    BitVec.extractLsb'_append_eq_ite (v := 13) (w := 3), BitVec.extractLsb'_append_eq_ite (v := 11) (w := 2),
    BitVec.extractLsb'_append_eq_ite (v := 10) (w := 1), BitVec.extractLsb'_append_eq_ite (v := 7) (w := 3),
    BitVec.extractLsb'_append_eq_ite (v := 4) (w := 3)]

theorem Laws.EncodeOpcode.addImm (dr sr1 : RegIdx) (i : BitVec 5) :
    Laws.EncodeOpcode.Statement (.addImm dr sr1 i) := by
  simp [Laws.EncodeOpcode.Statement, encode, opField, Instr.opcode,
    BitVec.extractLsb'_append_eq_ite (v := 11) (w := 5), BitVec.extractLsb'_append_eq_ite (v := 10) (w := 1),
    BitVec.extractLsb'_append_eq_ite (v := 7) (w := 3), BitVec.extractLsb'_append_eq_ite (v := 4) (w := 3)]

theorem Laws.EncodeOpcode.ld (dr : RegIdx) (o : BitVec 9) :
    Laws.EncodeOpcode.Statement (.ld dr o) := by
  simp [Laws.EncodeOpcode.Statement, encode, opField, Instr.opcode,
    BitVec.extractLsb'_append_eq_ite (v := 7) (w := 9), BitVec.extractLsb'_append_eq_ite (v := 4) (w := 3)]

theorem Laws.EncodeOpcode.st (sr : RegIdx) (o : BitVec 9) :
    Laws.EncodeOpcode.Statement (.st sr o) := by
  simp [Laws.EncodeOpcode.Statement, encode, opField, Instr.opcode,
    BitVec.extractLsb'_append_eq_ite (v := 7) (w := 9), BitVec.extractLsb'_append_eq_ite (v := 4) (w := 3)]

theorem Laws.EncodeOpcode.jsr (o : BitVec 11) :
    Laws.EncodeOpcode.Statement (.jsr o) := by
  simp [Laws.EncodeOpcode.Statement, encode, opField, Instr.opcode,
    BitVec.extractLsb'_append_eq_ite (v := 5) (w := 11)]

theorem Laws.EncodeOpcode.jsrr (b : RegIdx) :
    Laws.EncodeOpcode.Statement (.jsrr b) := by
  simp [Laws.EncodeOpcode.Statement, encode, opField, Instr.opcode,
    BitVec.extractLsb'_append_eq_ite (v := 10) (w := 6), BitVec.extractLsb'_append_eq_ite (v := 7) (w := 3)]

theorem Laws.EncodeOpcode.andReg (dr sr1 sr2 : RegIdx) :
    Laws.EncodeOpcode.Statement (.andReg dr sr1 sr2) := by
  simp [Laws.EncodeOpcode.Statement, encode, opField, Instr.opcode,
    BitVec.extractLsb'_append_eq_ite (v := 13) (w := 3), BitVec.extractLsb'_append_eq_ite (v := 11) (w := 2),
    BitVec.extractLsb'_append_eq_ite (v := 10) (w := 1), BitVec.extractLsb'_append_eq_ite (v := 7) (w := 3),
    BitVec.extractLsb'_append_eq_ite (v := 4) (w := 3)]

theorem Laws.EncodeOpcode.andImm (dr sr1 : RegIdx) (i : BitVec 5) :
    Laws.EncodeOpcode.Statement (.andImm dr sr1 i) := by
  simp [Laws.EncodeOpcode.Statement, encode, opField, Instr.opcode,
    BitVec.extractLsb'_append_eq_ite (v := 11) (w := 5), BitVec.extractLsb'_append_eq_ite (v := 10) (w := 1),
    BitVec.extractLsb'_append_eq_ite (v := 7) (w := 3), BitVec.extractLsb'_append_eq_ite (v := 4) (w := 3)]

theorem Laws.EncodeOpcode.ldr (dr b : RegIdx) (o : BitVec 6) :
    Laws.EncodeOpcode.Statement (.ldr dr b o) := by
  simp [Laws.EncodeOpcode.Statement, encode, opField, Instr.opcode,
    BitVec.extractLsb'_append_eq_ite (v := 10) (w := 6), BitVec.extractLsb'_append_eq_ite (v := 7) (w := 3),
    BitVec.extractLsb'_append_eq_ite (v := 4) (w := 3)]

theorem Laws.EncodeOpcode.str (sr b : RegIdx) (o : BitVec 6) :
    Laws.EncodeOpcode.Statement (.str sr b o) := by
  simp [Laws.EncodeOpcode.Statement, encode, opField, Instr.opcode,
    BitVec.extractLsb'_append_eq_ite (v := 10) (w := 6), BitVec.extractLsb'_append_eq_ite (v := 7) (w := 3),
    BitVec.extractLsb'_append_eq_ite (v := 4) (w := 3)]

theorem Laws.EncodeOpcode.rti : Laws.EncodeOpcode.Statement .rti := rfl

theorem Laws.EncodeOpcode.not (dr sr : RegIdx) :
    Laws.EncodeOpcode.Statement (.not dr sr) := by
  simp [Laws.EncodeOpcode.Statement, encode, opField, Instr.opcode,
    BitVec.extractLsb'_append_eq_ite (v := 10) (w := 6), BitVec.extractLsb'_append_eq_ite (v := 7) (w := 3),
    BitVec.extractLsb'_append_eq_ite (v := 4) (w := 3)]

theorem Laws.EncodeOpcode.ldi (dr : RegIdx) (o : BitVec 9) :
    Laws.EncodeOpcode.Statement (.ldi dr o) := by
  simp [Laws.EncodeOpcode.Statement, encode, opField, Instr.opcode,
    BitVec.extractLsb'_append_eq_ite (v := 7) (w := 9), BitVec.extractLsb'_append_eq_ite (v := 4) (w := 3)]

theorem Laws.EncodeOpcode.sti (sr : RegIdx) (o : BitVec 9) :
    Laws.EncodeOpcode.Statement (.sti sr o) := by
  simp [Laws.EncodeOpcode.Statement, encode, opField, Instr.opcode,
    BitVec.extractLsb'_append_eq_ite (v := 7) (w := 9), BitVec.extractLsb'_append_eq_ite (v := 4) (w := 3)]

theorem Laws.EncodeOpcode.jmp (b : RegIdx) :
    Laws.EncodeOpcode.Statement (.jmp b) := by
  simp [Laws.EncodeOpcode.Statement, encode, opField, Instr.opcode,
    BitVec.extractLsb'_append_eq_ite (v := 10) (w := 6), BitVec.extractLsb'_append_eq_ite (v := 7) (w := 3)]

theorem Laws.EncodeOpcode.res : Laws.EncodeOpcode.Statement .res := rfl

theorem Laws.EncodeOpcode.lea (dr : RegIdx) (o : BitVec 9) :
    Laws.EncodeOpcode.Statement (.lea dr o) := by
  simp [Laws.EncodeOpcode.Statement, encode, opField, Instr.opcode,
    BitVec.extractLsb'_append_eq_ite (v := 7) (w := 9), BitVec.extractLsb'_append_eq_ite (v := 4) (w := 3)]

theorem Laws.EncodeOpcode.trap (v : BitVec 8) :
    Laws.EncodeOpcode.Statement (.trap v) := by
  simp [Laws.EncodeOpcode.Statement, encode, opField, Instr.opcode,
    BitVec.extractLsb'_append_eq_ite (v := 8) (w := 8)]

theorem Laws.EncodeOpcode.trapGetc : Laws.EncodeOpcode.Statement .trapGetc := rfl

theorem Laws.EncodeOpcode.trapOut : Laws.EncodeOpcode.Statement .trapOut := rfl

theorem Laws.EncodeOpcode.trapPuts : Laws.EncodeOpcode.Statement .trapPuts := rfl

theorem Laws.EncodeOpcode.trapIn : Laws.EncodeOpcode.Statement .trapIn := rfl

theorem Laws.EncodeOpcode.trapPutsp : Laws.EncodeOpcode.Statement .trapPutsp := rfl

theorem Laws.EncodeOpcode.trapHalt : Laws.EncodeOpcode.Statement .trapHalt := rfl

theorem Laws.EncodeOpcode.ret : Laws.EncodeOpcode.Statement .ret := rfl

end Sys2Proof
end

