-- ==== Sys2Proof/Laws/Step.lean ====
section
/-! SUPPORT. Everything a step can do: the environment's move, and then an instruction, a held routine, or nothing. -/

namespace Sys2Proof.Machine

variable (s : State)

/-- The environment's move after its listed moves changes nothing but the input queue and its place in the schedule. -/
theorem laterMove_frame : s.laterMove = { s with inq := s.laterMove.inq, later := s.laterMove.later } := by
  unfold State.laterMove
  cases s.later <;> rfl

theorem laterMove_of_quiet (h : s.later = .quiet) : s.laterMove = s := by
  simp [State.laterMove, h]

theorem laterMove_of_endless {k n : Nat} (h : s.later = .endless k n) :
    s.laterMove = { s with inq := s.inq ++ Config.freeArrivals k n, later := .endless k (n + 1) } := by
  simp [State.laterMove, h, State.arrive]

/-- The environment only appends to the input queue, and a reset leaves it. -/
theorem envMove_inq : ∃ cs, s.envMove.inq = s.inq ++ cs := by
  unfold State.envMove
  cases s.env with
  | nil =>
    cases hl : s.later with
    | quiet => exact ⟨[], by simp [laterMove_of_quiet s hl]⟩
    | endless k n => exact ⟨Config.freeArrivals k n, by rw [laterMove_of_endless s hl]⟩
  | cons m rest =>
    cases m with
    | arrive cs => exact ⟨cs, rfl⟩
    | reset => exact ⟨[], by simp⟩

/-- With no reset coming, the environment's move changes nothing but the input queue and what it has still to do. -/
theorem envMove_frame (h : s.resetNext = false) :
    s.envMove = { s with inq := s.envMove.inq, env := s.envMove.env, later := s.envMove.later } := by
  unfold State.envMove
  cases he : s.env with
  | nil =>
    unfold State.laterMove
    cases s.later <;> rfl
  | cons m rest =>
    cases m with
    | arrive cs => rfl
    | reset => simp [State.resetNext, he] at h

theorem envMove_of_nil (h : s.env = []) : s.envMove = s.laterMove := by
  simp [State.envMove, h]

/-- With no move listed and none to come, the environment does nothing. -/
theorem envMove_of_quiet (h : s.env = []) (hl : s.later = .quiet) : s.envMove = s := by
  rw [envMove_of_nil s h, laterMove_of_quiet s hl]

/-! With no reset coming, the environment's move leaves each of these fields. -/

theorem envMove_x (h : s.resetNext = false) : s.envMove.x = s.x := by rw [envMove_frame s h]
theorem envMove_pc (h : s.resetNext = false) : s.envMove.pc = s.pc := by rw [envMove_frame s h]
theorem envMove_cond (h : s.resetNext = false) : s.envMove.cond = s.cond := by rw [envMove_frame s h]
theorem envMove_run (h : s.resetNext = false) : s.envMove.run = s.run := by rw [envMove_frame s h]
theorem envMove_mem (h : s.resetNext = false) : s.envMove.mem = s.mem := by rw [envMove_frame s h]
theorem envMove_out (h : s.resetNext = false) : s.envMove.out = s.out := by rw [envMove_frame s h]
theorem envMove_held (h : s.resetNext = false) : s.envMove.held = s.held := by rw [envMove_frame s h]
theorem envMove_cfg (h : s.resetNext = false) : s.envMove.cfg = s.cfg := by rw [envMove_frame s h]

/-- A step of an accepted configuration is one of four: a reset, nothing (halted), a held routine, an instruction. -/
theorem step_cases (hv : s.cfg.valid = true) :
    (s.resetNext = true ∧ step s = .next s.envMove) ∨
    (s.resetNext = false ∧ s.run = false ∧ step s = .next s.envMove) ∨
    (∃ h, s.resetNext = false ∧ s.run = true ∧ s.held = some h ∧ step s = .next (s.envMove.resume h)) ∨
    (s.Fetches ∧ step s = exec (decode s.envMove.fetchWord) s.envMove.afterFetch) := by
  by_cases hr : s.resetNext = true
  · exact .inl ⟨hr, by simp [step, State.checkedCycle, hv, State.cycle, hr]⟩
  · have hr : s.resetNext = false := by simpa using hr
    have hf := envMove_frame s hr
    have hrun : s.envMove.run = s.run := by rw [hf]
    have hheld : s.envMove.held = s.held := by rw [hf]
    by_cases hn : s.run = true
    · cases hh : s.held with
      | none =>
        exact .inr (.inr (.inr ⟨⟨hv, hn, hh, hr⟩, by
          simp [step, State.checkedCycle, hv, State.cycle, hr, State.engineStep, hrun, hheld, hn, hh, State.runInstr]⟩))
      | some h =>
        exact .inr (.inr (.inl ⟨h, hr, hn, rfl, by
          simp [step, State.checkedCycle, hv, State.cycle, hr, State.engineStep, hrun, hheld, hn, hh]⟩))
    · have hn : s.run = false := by simpa using hn
      exact .inr (.inl ⟨hr, hn, by simp [step, State.checkedCycle, hv, State.cycle, hr, State.engineStep, hrun, hn]⟩)

/-- A running machine that is inside a routine goes on with it. -/
theorem step_held (hv : s.cfg.valid = true) (hr : s.run = true) (hn : s.resetNext = false) {k : Held} (hh : s.held = some k) :
    step s = .next (s.envMove.resume k) := by
  rcases step_cases s hv with ⟨h1, _⟩ | ⟨_, h1, _⟩ | ⟨_, _, _, h1, h2⟩ | ⟨h1, _⟩
  · simp [hn] at h1
  · simp [hr] at h1
  · rw [hh] at h1
    cases h1
    exact h2
  · have h0 := h1.2.2.1
    rw [hh] at h0
    cases h0

end Sys2Proof.Machine
end

