-- ==== Sys2Proof/Tests/Slice0.lean ====
section
/-! SUPPORT. Tests: expected results are the spec's own words, vectors and encodings (95_test_vectors.md, 30_encoding.md), named in
each comment; and for every obligation with hypotheses a witness that meets them. -/

namespace Sys2Proof.Tests

open Sys2Proof Sys2Proof.Machine

/-! ## WellFormed: an ill-formed term for each check, refused -/

/-- R67: JMP with base R7 is RET. -/
theorem test_wf_refuses_jmp_r7 : (Instr.jmp 7#3).wf = false := by decide

/-- R95: a vector from 0x20 to 0x25 is one of the services. -/
theorem test_wf_refuses_service_vectors :
    (Instr.trap 0x20#8).wf = false ∧ (Instr.trap 0x25#8).wf = false ∧ (Instr.trap 0x1F#8).wf = true ∧
    (Instr.trap 0x26#8).wf = true := by decide

/-! ## Decoding: a word of the spec for every constructor -/

/-- Vectors V-C1, V-C6 and the decode-only words 0x0000 and 0x0E00. -/
theorem test_decode_br :
    decode 0x0402#16 = .br 0b010#3 2#9 ∧ decode 0x0900#16 = .br 0b100#3 0x100#9 ∧ decode 0x0000#16 = .br 0#3 0#9 ∧
    decode 0x0E00#16 = .br 0b111#3 0#9 := by decide

/-- Scenario A (0x12A5), vectors V-OP2 and V-OP7, decode-only words 0x1080 and 0x10A0. -/
theorem test_decode_add :
    decode 0x12A5#16 = .addImm 1#3 2#3 5#5 ∧ decode 0x1042#16 = .addReg 0#3 1#3 2#3 ∧ decode 0x1098#16 = .addReg 0#3 2#3 0#3 ∧
    decode 0x1080#16 = .addReg 0#3 2#3 0#3 ∧ decode 0x10A0#16 = .addImm 0#3 2#3 0#5 := by decide

/-- Vectors V-OP8, V-OP11 and the decode-only word 0x5FFF. -/
theorem test_decode_and :
    decode 0x54EF#16 = .andImm 2#3 3#3 15#5 ∧ decode 0x5042#16 = .andReg 0#3 1#3 2#3 ∧
    decode 0x5FFF#16 = .andImm 7#3 7#3 0x1F#5 := by decide

/-- Vectors V-OP15 and V-OP16 (ignored bits clear). -/
theorem test_decode_not : decode 0x973F#16 = .not 3#3 4#3 ∧ decode 0x9000#16 = .not 0#3 0#3 := by decide

/-- Vectors V-C12, V-C13 and V-C14 (ignored bits set). -/
theorem test_decode_jmp_ret :
    decode 0xC080#16 = .jmp 2#3 ∧ decode 0xC1C0#16 = .ret ∧ decode 0xCE3F#16 = .jmp 0#3 := by decide

/-- Vectors V-C15, V-C16, V-C19 and V-C21 (ignored bits set). -/
theorem test_decode_jsr_jsrr :
    decode 0x4802#16 = .jsr 2#11 ∧ decode 0x4C00#16 = .jsr 0x400#11 ∧ decode 0x40C0#16 = .jsrr 3#3 ∧
    decode 0x46FF#16 = .jsrr 3#3 := by decide

/-- Decode-only word 0x2FFF, Scenario B (0xA000), vectors V-M10 and V-M14. -/
theorem test_decode_loads :
    decode 0x2FFF#16 = .ld 7#3 0x1FF#9 ∧ decode 0xA000#16 = .ldi 0#3 0#9 ∧ decode 0x673F#16 = .ldr 3#3 4#3 0x3F#6 ∧
    decode 0xE205#16 = .lea 1#3 5#9 := by decide

/-- Vectors V-M17, V-M20, V-M23 and V-M25. -/
theorem test_decode_stores :
    decode 0x3603#16 = .st 3#3 3#9 ∧ decode 0xB201#16 = .sti 1#3 1#9 ∧ decode 0x7040#16 = .str 0#3 1#3 0#6 ∧
    decode 0x7F9F#16 = .str 7#3 6#3 31#6 := by decide

/-- R95 and vectors V-T1 to V-T21. -/
theorem test_decode_traps :
    decode 0xF020#16 = .trapGetc ∧ decode 0xF021#16 = .trapOut ∧ decode 0xF022#16 = .trapPuts ∧ decode 0xF023#16 = .trapIn ∧
    decode 0xF024#16 = .trapPutsp ∧ decode 0xF025#16 = .trapHalt ∧ decode 0xFF21#16 = .trapOut ∧
    decode 0xF01F#16 = .trap 0x1F#8 ∧ decode 0xF026#16 = .trap 0x26#8 := by decide

/-- Decode-only words 0x8ABC and 0xD123. -/
theorem test_decode_reserved : decode 0x8ABC#16 = .rti ∧ decode 0xD123#16 = .res := by decide

/-- R68: canonical words, from the same formats. -/
theorem test_encode_fills_ignored_bits :
    encode (.not 1#3 1#3) = 0x927F#16 ∧ encode (.addReg 0#3 1#3 2#3) = 0x1042#16 ∧ encode (.jsrr 3#3) = 0x40C0#16 ∧
    encode .rti = 0x8000#16 ∧ encode .res = 0xD000#16 ∧ encode .ret = 0xC1C0#16 := by decide

/-- A 16-bit row of the table, and a number that is no 16-bit word. -/
theorem test_decodeTableWord :
    decodeTableWord 16 0x12A5 = some (.addImm 1#3 2#3 5#5) ∧ decodeTableWord 16 0x10000 = none := by decide

/-! ## One step -/

/-- A running machine at `pc` with these condition codes, registers, cells and waiting characters, and the word `w` at `pc`. -/
def boot (pc w : Word) (cond : Cond) (regs : List (RegIdx × Word)) (cells : List (Word × Word)) (inq : List Byte) : State :=
  let s := ({ State.launch defaultConfig [] inq [] .quiet with pc := pc, cond := cond }.preload cells).withFetchWord 16 w.toNat
  regs.foldl (fun t p => t.setReg p.1 p.2) s

/-- The state a step answers. -/
def after (s : State) : Option State :=
  match step s with
  | .next t => some t
  | .fault _ => none
  | .refused _ => none

/-- A register, the program counter and the condition codes after a step. -/
def regAfter (s : State) (r : RegIdx) : Option (Word × Word × Cond) :=
  (after s).map (fun t => (t.reg r, t.pc, t.cond))

/-- Two keyboard cells and the input queue after a step. -/
def keyboardAfter (s : State) : Option (Word × Word × List Byte) :=
  (after s).map (fun t => (t.rawRead 0xFE00#16, t.rawRead 0xFE02#16, t.inq))

/-- The output, R0 and the program counter after a step. -/
def outputAfter (s : State) : Option (List Byte × Word × Word) :=
  (after s).map (fun t => (t.out, t.reg 0#3, t.pc))

/-- V-OP2: signed overflow wraps to negative. -/
theorem test_add_reg_wraps :
    regAfter (boot 0x3000#16 0x1042#16 0b001#3 [(1#3, 0x7FFF#16), (2#3, 0x0001#16)] [] []) 0#3 =
      some (0x8000#16, 0x3001#16, 0b100#3) := by decide

/-- V-OP7: the ignored bits 4:3 are set. -/
theorem test_add_reg_ignored_bits :
    regAfter (boot 0x3000#16 0x1098#16 0b001#3 [(0#3, 0x0003#16), (2#3, 0x0004#16)] [] []) 0#3 =
      some (0x0007#16, 0x3001#16, 0b001#3) := by decide

/-- V-OP1, Scenario A. -/
theorem test_add_imm :
    regAfter (boot 0x3000#16 0x12A5#16 0b000#3 [(2#3, 0x000A#16)] [] []) 1#3 = some (0x000F#16, 0x3001#16, 0b001#3) := by decide

/-- V-OP17: the program counter wraps. -/
theorem test_add_imm_pc_wraps :
    regAfter (boot 0xFFFF#16 0x1020#16 0b100#3 [] [] []) 0#3 = some (0x0000#16, 0x0000#16, 0b010#3) := by decide

/-- V-OP11. -/
theorem test_and_reg :
    regAfter (boot 0x3000#16 0x5042#16 0b001#3 [(1#3, 0xFF00#16), (2#3, 0x0FF0#16)] [] []) 0#3 =
      some (0x0F00#16, 0x3001#16, 0b001#3) := by decide

/-- V-OP9: the immediate is sign-extended before the AND. -/
theorem test_and_imm_sign_extends :
    regAfter (boot 0x3000#16 0x527F#16 0b001#3 [(1#3, 0x8001#16)] [] []) 1#3 = some (0x8001#16, 0x3001#16, 0b100#3) := by decide

/-- V-OP15. -/
theorem test_not :
    regAfter (boot 0x3000#16 0x973F#16 0b100#3 [(4#3, 0x8000#16)] [] []) 3#3 = some (0x7FFF#16, 0x3001#16, 0b001#3) := by decide

/-- V-C6: taken backwards. -/
theorem test_br_taken :
    regAfter (boot 0x3000#16 0x0900#16 0b100#3 [] [] []) 7#3 = some (0x0000#16, 0x2F01#16, 0b100#3) := by decide

/-- V-C8: n and p are set and the flag is Z. -/
theorem test_br_not_taken :
    regAfter (boot 0x3000#16 0x0A03#16 0b010#3 [] [] []) 7#3 = some (0x0000#16, 0x3001#16, 0b010#3) := by decide

/-- V-C12. -/
theorem test_jmp :
    regAfter (boot 0x3000#16 0xC080#16 0b100#3 [(2#3, 0x4000#16)] [] []) 7#3 = some (0x0000#16, 0x4000#16, 0b100#3) := by decide

/-- V-C13. -/
theorem test_ret :
    regAfter (boot 0x3000#16 0xC1C0#16 0b010#3 [(7#3, 0x3002#16)] [] []) 7#3 = some (0x3002#16, 0x3002#16, 0b010#3) := by decide

/-- V-C16: offset -1024. -/
theorem test_jsr :
    regAfter (boot 0x3000#16 0x4C00#16 0b001#3 [] [] []) 7#3 = some (0x3001#16, 0x2C01#16, 0b001#3) := by decide

/-- V-C19. -/
theorem test_jsrr :
    regAfter (boot 0x3000#16 0x40C0#16 0b010#3 [(3#3, 0x5000#16)] [] []) 7#3 = some (0x3001#16, 0x5000#16, 0b010#3) := by decide

/-- V-C20: the link is written first, so JSRR R7 falls through. -/
theorem test_jsrr_r7 :
    regAfter (boot 0x3000#16 0x41C0#16 0b001#3 [(7#3, 0x5000#16)] [] []) 7#3 = some (0x3001#16, 0x3001#16, 0b001#3) := by decide

/-- V-M1. -/
theorem test_ld :
    regAfter (boot 0x3000#16 0x2402#16 0b001#3 [] [(0x3003#16, 0xBEEF#16)] []) 2#3 = some (0xBEEF#16, 0x3001#16, 0b100#3) := by decide

/-- V-M5: a poll with no character clears KBSR and keeps KBDR. -/
theorem test_ld_polls :
    keyboardAfter (boot 0xFDFF#16 0x2000#16 0b100#3 [] [(0xFE00#16, 0x8000#16), (0xFE02#16, 0x0041#16)] []) =
      some (0x0000#16, 0x0041#16, []) := by decide

/-- V-M7, Scenario B as a whole step. -/
theorem test_ldi :
    regAfter (boot 0x2FFF#16 0xA000#16 0b000#3 [] [(0x3000#16, 0x4000#16), (0x4000#16, 0x002A#16)] []) 0#3 =
      some (0x002A#16, 0x3000#16, 0b001#3) := by decide

/-- V-M9: the pointer cell is KBSR itself, so the pointer is 0x8000. -/
theorem test_ldi_pointer_polls :
    regAfter (boot 0xFDFF#16 0xA600#16 0b001#3 [] [(0x8000#16, 0x0077#16)] [0x7A#8]) 3#3 =
      some (0x0077#16, 0xFE00#16, 0b001#3) := by decide

/-- V-M11: offset -32, and the address wraps. -/
theorem test_ldr :
    regAfter (boot 0x3000#16 0x62A0#16 0b100#3 [(2#3, 0x0010#16)] [(0xFFF0#16, 0x0001#16)] []) 1#3 =
      some (0x0001#16, 0x3001#16, 0b001#3) := by decide

/-- V-M13: the base is read before DR is written; it loads its own word. -/
theorem test_ldr_base_is_destination :
    regAfter (boot 0x3000#16 0x6B40#16 0b001#3 [(5#3, 0x3000#16)] [] []) 5#3 = some (0x6B40#16, 0x3001#16, 0b001#3) := by decide

/-- V-M16: LEA can set N. -/
theorem test_lea :
    regAfter (boot 0x7FFF#16 0xE4FF#16 0b001#3 [] [] []) 2#3 = some (0x80FF#16, 0x8000#16, 0b100#3) := by decide

/-- V-M19: a store to KBSR is a plain store. -/
theorem test_st_kbsr :
    keyboardAfter (boot 0xFDFF#16 0x3200#16 0b001#3 [(1#3, 0x1234#16)] [] []) = some (0x1234#16, 0x0000#16, []) := by decide

/-- V-M21: the pointer read polls, and the pointer is 0x8000. -/
theorem test_sti_pointer_polls :
    (after (boot 0xFDFF#16 0xB200#16 0b001#3 [(1#3, 0x00AA#16)] [] [0x31#8])).map (fun t => (t.rawRead 0x8000#16, t.inq)) =
      some (0x00AA#16, []) := by decide

/-- V-M20. -/
theorem test_sti :
    (after (boot 0x3000#16 0xB201#16 0b010#3 [(1#3, 0x00AA#16)] [(0x3002#16, 0x5000#16)] [])).map
      (fun t => (t.rawRead 0x5000#16, t.cond)) = some (0x00AA#16, 0b010#3) := by decide

/-- V-M25. -/
theorem test_str :
    (after (boot 0x3000#16 0x7F9F#16 0b001#3 [(6#3, 0x4000#16), (7#3, 0xABCD#16)] [] [])).map (fun t => t.rawRead 0x401F#16) =
      some 0xABCD#16 := by decide

/-- V-T1: R0 gets the character, zero-extended; the flags are kept. -/
theorem test_getc :
    regAfter (boot 0x3000#16 0xF020#16 0b100#3 [(0#3, 0xFFFF#16)] [] [0x61#8]) 0#3 = some (0x0061#16, 0x3001#16, 0b100#3) := by decide

/-- V-T3: held. -/
theorem test_getc_held :
    (after (boot 0x3000#16 0xF020#16 0b001#3 [] [] [])).map (fun t => t.held) = some (some .getc) := by decide

/-- V-T6: the low byte of R0, and bits 11:8 of the word are ignored. -/
theorem test_out :
    outputAfter (boot 0x3000#16 0xFF21#16 0b001#3 [(0#3, 0xFF7E#16)] [] []) = some ([0x7E#8], 0xFF7E#16, 0x3001#16) := by decide

/-- V-T10: the pointer wraps. -/
theorem test_puts_wraps :
    outputAfter (boot 0x3000#16 0xF022#16 0b001#3 [(0#3, 0xFFFF#16)] [(0x0000#16, 0x0059#16), (0xFFFF#16, 0x0058#16)] []) =
      some ([0x58#8, 0x59#8], 0xFFFF#16, 0x3001#16) := by decide

/-- V-T9: only the low byte is output, and 0x0100 ends nothing. -/
theorem test_puts_low_byte :
    outputAfter (boot 0x3000#16 0xF022#16 0b001#3 [(0#3, 0x4000#16)] [(0x4000#16, 0x0141#16), (0x4001#16, 0x0100#16)] []) =
      some ([0x41#8, 0x00#8], 0x4000#16, 0x3001#16) := by decide

/-- V-T12: the prompt, the echo, R0. -/
theorem test_in :
    outputAfter (boot 0x3000#16 0xF023#16 0b100#3 [(0#3, 0xFFFF#16)] [] [0x79#8]) =
      some ([0x45#8, 0x6E#8, 0x74#8, 0x65#8, 0x72#8, 0x20#8, 0x61#8, 0x20#8, 0x63#8, 0x68#8, 0x61#8, 0x72#8, 0x61#8, 0x63#8,
        0x74#8, 0x65#8, 0x72#8, 0x3A#8, 0x20#8, 0x79#8], 0x0079#16, 0x3001#16) := by decide

/-- V-T16: a zero high byte does not end the string. -/
theorem test_putsp :
    outputAfter (boot 0x3000#16 0xF024#16 0b001#3 [(0#3, 0x4000#16)] [(0x4000#16, 0x0041#16), (0x4001#16, 0x4342#16)] []) =
      some ([0x41#8, 0x42#8, 0x43#8], 0x4000#16, 0x3001#16) := by decide

/-- V-T15: a zero low byte is output. -/
theorem test_putsp_zero_low_byte :
    outputAfter (boot 0x3000#16 0xF024#16 0b001#3 [(0#3, 0x4000#16)] [(0x4000#16, 0x4100#16)] []) =
      some ([0x00#8, 0x41#8], 0x4000#16, 0x3001#16) := by decide

/-- V-T17, Scenario E. -/
theorem test_halt :
    (after (boot 0x3004#16 0xF025#16 0b100#3 [(0#3, 0x0007#16)] [] [])).map (fun t => (t.out, t.run, t.pc, t.cond)) =
      some ([0x48#8, 0x41#8, 0x4C#8, 0x54#8, 0x0A#8], false, 0x3005#16, 0b100#3) := by decide

/-- V-T19: the first vector after HALT does nothing. -/
theorem test_trap_unknown_vector :
    after (boot 0x3000#16 0xF026#16 0b001#3 [(0#3, 0x0041#16)] [] []) =
      some ((boot 0x3000#16 0xF026#16 0b001#3 [(0#3, 0x0041#16)] [] []).setPc 0x3001#16) := by decide

/-- V-R2. -/
theorem test_rti :
    after (boot 0x3000#16 0x8FFF#16 0b010#3 [] [] []) = some ((boot 0x3000#16 0x8FFF#16 0b010#3 [] [] []).setPc 0x3001#16) := by decide

/-- V-R3. -/
theorem test_res :
    after (boot 0xFFFF#16 0xD000#16 0b001#3 [] [] []) = some ((boot 0xFFFF#16 0xD000#16 0b001#3 [] [] []).setPc 0x0000#16) := by decide

/-- V-K2 (a): a fetch from KBSR polls, and the word it reads is a no-op. -/
theorem test_fetch_from_kbsr :
    keyboardAfter (boot 0xFE00#16 0x1234#16 0b010#3 [] [] [0x41#8]) = some (0x8000#16, 0x0041#16, []) := by decide

/-- R34: a configuration with equal keyboard addresses is rejected. -/
theorem test_invalid_config_refused :
    step (State.launch { defaultConfig with kbdrAddr := 0xFE00#16 } [] [] [] .quiet) = .refused .invalidConfig := rfl

/-! ## Witnesses: the hypotheses of each obligation are met -/

/-- ADD R0,R1,R2 at 0x3000 (V-OP2). -/
def sAdd : State := boot 0x3000#16 0x1042#16 0b001#3 [(1#3, 0x7FFF#16), (2#3, 0x0001#16)] [] []

/-- At 0xFFFF, the last address. -/
def sTop : State := boot 0xFFFF#16 0x0000#16 0b001#3 [] [] []

/-- At KBSR_ADDR, with no character waiting. -/
def sKbsr : State := boot 0xFE00#16 0x0000#16 0b010#3 [] [] []

/-- At KBSR_ADDR, with one character waiting. -/
def sKbsrIn : State := boot 0xFE00#16 0x0000#16 0b010#3 [] [] [0x41#8]

theorem test_witness_DecodeOfEncodeIsTheInstruction :
    (Instr.jmp 6#3).wf = true ∧ (Instr.trap 0x1F#8).wf = true ∧ (Instr.trap 0x26#8).wf = true ∧
    (Instr.addReg 7#3 0#3 7#3).wf = true ∧ Instr.ret.wf = true := by decide

theorem test_witness_IgnoredBitsSelectTheSameInstruction :
    ((Instr.addReg 0#3 2#3 0#3).wf = true ∧ 0x1098#16 &&& ~~~(Instr.addReg 0#3 2#3 0#3).ignoredBits =
      encode (.addReg 0#3 2#3 0#3) &&& ~~~(Instr.addReg 0#3 2#3 0#3).ignoredBits) ∧
    (Instr.trapHalt.wf = true ∧ 0xFF25#16 &&& ~~~Instr.trapHalt.ignoredBits =
      encode .trapHalt &&& ~~~Instr.trapHalt.ignoredBits) ∧
    (Instr.trap 0x26#8).isTrap = true ∧ Instr.trapHalt.isTrap = true := by decide

theorem test_witness_SignExtensionIsModularSubtraction :
    (5 ∈ [5, 6, 9, 11] ∧ (0x0F#5).msb = false ∧ (0x10#5).msb = true) ∧
    (6 ∈ [5, 6, 9, 11] ∧ (0x1F#6).msb = false ∧ (0x20#6).msb = true) ∧
    (9 ∈ [5, 6, 9, 11] ∧ (0x0FF#9).msb = false ∧ (0x100#9).msb = true) ∧
    (11 ∈ [5, 6, 9, 11] ∧ (0x3FF#11).msb = false ∧ (0x400#11).msb = true) := by decide

theorem test_witness_StepRunsTheDecodedInstruction :
    (sAdd.Fetches ∧ sAdd.env = [] ∧ sAdd.later = .quiet) ∧
    ({ sAdd with env := [.arrive [0x61#8]] }.Fetches ∧
      { sAdd with env := [.arrive [0x61#8]] }.env = .arrive [0x61#8] :: []) ∧
    ({ sAdd with later := .endless 0 7 }.Fetches ∧ { sAdd with later := .endless 0 7 }.env = [] ∧
      { sAdd with later := .endless 0 7 }.later = .endless 0 7) := by decide

theorem test_witness_FetchReadsTheCellAtPcAndIncrementsIt :
    (sAdd.Fetches ∧ sAdd.pc ≠ sAdd.cfg.kbsrAddr) ∧
    (sTop.Fetches ∧ sTop.pc ≠ sTop.cfg.kbsrAddr ∧ sTop.pc = 0xFFFF#16) := by decide

theorem test_witness_FetchFromKbsrPollsAndIsANoOp :
    (sKbsr.Fetches ∧ sKbsr.pc = sKbsr.cfg.kbsrAddr ∧ sKbsr.envMove.inq = []) ∧
    (sKbsrIn.Fetches ∧ sKbsrIn.pc = sKbsrIn.cfg.kbsrAddr ∧ sKbsrIn.envMove.inq = 0x41#8 :: []) ∧
    0x3000#16 ≠ sKbsr.cfg.kbsrAddr ∧ 0x3000#16 ≠ sKbsr.cfg.kbdrAddr := by decide

theorem test_witness_NoInstructionAndNoStepStops : State.reset.cfg.valid = true := by decide

theorem test_witness_OnlyEqualKeyboardAddressesAreRejected :
    (State.launch { defaultConfig with kbdrAddr := 0xFE00#16 } [] [] [] .quiet).cfg.kbsrAddr =
      (State.launch { defaultConfig with kbdrAddr := 0xFE00#16 } [] [] [] .quiet).cfg.kbdrAddr ∧
    step (State.launch { defaultConfig with kbdrAddr := 0xFE00#16 } [] [] [] .quiet) = .refused .invalidConfig := ⟨rfl, rfl⟩

theorem test_witness_AddressArithmeticWrapsAndNoAccessFaults :
    sTop.pc = 0xFFFF#16 ∧ (sTop.setPc 0x0000#16).pc = 0x0000#16 := by decide

theorem test_witness_MemReadPollsTheKeyboardAtKbsrOnly :
    0xFE02#16 ≠ sKbsr.cfg.kbsrAddr ∧ (sKbsr.cfg.valid = true ∧ sKbsr.inq = []) ∧
    (sKbsrIn.cfg.valid = true ∧ sKbsrIn.inq = 0x41#8 :: []) ∧
    (0xFE01#16 ≠ sKbsrIn.cfg.kbsrAddr ∧ 0xFE01#16 ≠ sKbsrIn.cfg.kbdrAddr) := by decide

/-- A storing form and a form that stores nothing. -/
theorem test_witness_InstructionsChangeNoOtherCell :
    (∃ t, exec (.addReg 0#3 1#3 2#3) sAdd = .next t) ∧ (Instr.addReg 0#3 1#3 2#3).accessesMem = false ∧
    (∃ t, exec (.st 1#3 0#9) sAdd = .next t) ∧ (Instr.st 1#3 0#9).storeAddr sAdd ≠ some 0x3001#16 ∧
    0x3001#16 ≠ sAdd.cfg.kbsrAddr ∧ 0x3001#16 ≠ sAdd.cfg.kbdrAddr :=
  ⟨⟨_, rfl⟩, by decide, ⟨_, rfl⟩, by decide, by decide, by decide⟩

/-- STR R2,R1,#0 with R1 = 0x7FFF, read back by an LD that reaches the same cell from a program counter close to it. -/
theorem test_witness_StoreThenLoadReturnsTheValue :
    sAdd.baseOff 1#3 0#6 ≠ sAdd.cfg.kbsrAddr ∧
    (∃ t, exec (.str 2#3 1#3 0#6) (sAdd.setPc 0x7FF0#16) = .next t ∧
      t.pcRel 15#9 = (sAdd.setPc 0x7FF0#16).baseOff 1#3 0#6) := ⟨by decide, _, rfl, by decide⟩

/-- ST R2,#0 at 0x3005 (program P5). -/
theorem test_witness_StoreToTheNextCellIsExecutedNext :
    (boot 0x3005#16 0x3400#16 0b100#3 [(2#3, 0xF025#16)] [] []).Fetches ∧
    (boot 0x3005#16 0x3400#16 0b100#3 [(2#3, 0xF025#16)] [] []).envMove.resetNext = false ∧
    (boot 0x3005#16 0x3400#16 0b100#3 [(2#3, 0xF025#16)] [] []).pc ≠ 0xFE00#16 ∧
    (boot 0x3005#16 0x3400#16 0b100#3 [(2#3, 0xF025#16)] [] []).pc + 1#16 ≠ 0xFE00#16 ∧
    (boot 0x3005#16 0x3400#16 0b100#3 [(2#3, 0xF025#16)] [] []).cfg.kbsrAddr = 0xFE00#16 ∧
    decode ((boot 0x3005#16 0x3400#16 0b100#3 [(2#3, 0xF025#16)] [] []).rawRead 0x3005#16) = .st 2#3 0#9 := by decide

/-- The five boundary values of S-P2. -/
theorem test_witness_SetccSetsExactlyOneFlagFromTheRegister :
    0x8000 ≤ ((sAdd.setReg 3#3 0x8000#16).reg 3#3).toNat ∧ 0x8000 ≤ ((sAdd.setReg 3#3 0xFFFF#16).reg 3#3).toNat ∧
    ((sAdd.setReg 3#3 0x0000#16).reg 3#3).toNat = 0 ∧
    (0x0001 ≤ ((sAdd.setReg 3#3 0x0001#16).reg 3#3).toNat ∧ ((sAdd.setReg 3#3 0x0001#16).reg 3#3).toNat ≤ 0x7FFF) ∧
    (0x0001 ≤ ((sAdd.setReg 3#3 0x7FFF#16).reg 3#3).toNat ∧ ((sAdd.setReg 3#3 0x7FFF#16).reg 3#3).toNat ≤ 0x7FFF) := by decide

theorem test_witness_OnlySevenInstructionsWriteFlagsAndOnlyBranchReadsThem :
    (∃ t, exec (.addReg 0#3 1#3 2#3) sAdd = .next t) ∧ (Instr.addReg 0#3 1#3 2#3).flagReg = some 0#3 ∧
    (∃ t, exec (.jsr 0#11) sAdd = .next t) ∧ (Instr.jsr 0#11).flagReg = none ∧
    (∀ nzp off9, Instr.jsr 0#11 ≠ .br nzp off9) :=
  ⟨⟨_, rfl⟩, rfl, ⟨_, rfl⟩, rfl, fun _ _ => by simp⟩

/-- V-C4: BRnzp before the first flag. -/
theorem test_witness_BranchBeforeTheFirstFlagIsNeverTaken :
    (boot 0x3000#16 0x0FFF#16 0b000#3 [] [] []).Fetches ∧ (boot 0x3000#16 0x0FFF#16 0b000#3 [] [] []).cond = 0#3 ∧
    opField (boot 0x3000#16 0x0FFF#16 0b000#3 [] [] []).envMove.fetchWord = 0x0#4 := by decide

theorem test_witness_ExactlyOneFlagFromTheFirstFlagSettingInstructionOn :
    (Instr.addReg 0#3 1#3 2#3).flagReg ≠ none ∧ (∃ t, exec (.addReg 0#3 1#3 2#3) sAdd = .next t) ∧
    sAdd.resetNext = false ∧ condOneHot sAdd.cond = true ∧ (∃ t, step sAdd = .next t) :=
  ⟨by decide, ⟨_, rfl⟩, by decide, by decide, ⟨_, rfl⟩⟩

theorem test_witness_BranchIsTakenWhenAFlagItNamesIsSet :
    0b011#3 &&& sAdd.cond ≠ 0#3 ∧ 0b110#3 &&& sAdd.cond = 0#3 ∧ 0b000#3 &&& sAdd.cond = 0#3 := by decide

theorem test_witness_CallsLinkThroughR7BeforeTheyReadTheBase : (6#3 : RegIdx) ≠ 7#3 ∧ (0#3 : RegIdx) ≠ 7#3 := by decide

theorem test_witness_EachInstructionLeavesPcAsTabled :
    (∃ t, exec (.br 0b001#3 5#9) sAdd = .next t) ∧ (∃ t, exec (.jmp 1#3) sAdd = .next t) ∧ (∃ t, exec .ret sAdd = .next t) ∧
    (∃ t, exec (.jsr 5#11) sAdd = .next t) ∧ (∃ t, exec (.jsrr 7#3) sAdd = .next t) ∧
    (∃ t, exec .trapHalt sAdd = .next t) ∧ Instr.trapHalt.opcode ≠ 0x0#4 ∧ Instr.trapHalt.opcode ≠ 0x4#4 ∧
    Instr.trapHalt.opcode ≠ 0xC#4 :=
  ⟨⟨_, rfl⟩, ⟨_, rfl⟩, ⟨_, rfl⟩, ⟨_, rfl⟩, ⟨_, rfl⟩, ⟨_, rfl⟩, by decide, by decide, by decide⟩

theorem test_witness_LoadReadsThePcRelativeCell : sAdd.pc + (0x1FF#9).signExtend 16 ≠ sAdd.cfg.kbsrAddr := by decide

/-- Scenario B: the pointer at 0x3000 leads to 0x4000. -/
theorem test_witness_LoadIndirectReadsThroughThePointer :
    (boot 0x2FFF#16 0xA000#16 0b000#3 [] [(0x3000#16, 0x4000#16)] []).afterFetch.readValue 0x3000#16 = 0x4000#16 ∧
    (boot 0x2FFF#16 0xA000#16 0b000#3 [] [(0x3000#16, 0x4000#16)] []).afterFetch.pc + (0#9).signExtend 16 = 0x3000#16 ∧
    0x3000#16 ≠ (boot 0x2FFF#16 0xA000#16 0b000#3 [] [(0x3000#16, 0x4000#16)] []).afterFetch.cfg.kbsrAddr ∧
    0x4000#16 ≠ (boot 0x2FFF#16 0xA000#16 0b000#3 [] [(0x3000#16, 0x4000#16)] []).afterFetch.cfg.kbsrAddr := by decide

theorem test_witness_LoadBaseOffsetReadsTheCellItAddresses :
    sAdd.reg 1#3 + (0x20#6).signExtend 16 ≠ sAdd.cfg.kbsrAddr := by decide

theorem test_witness_StoreIndirectWritesThroughThePointer :
    sAdd.pc + (1#9).signExtend 16 = 0x3001#16 ∧ 0x3001#16 ≠ sAdd.cfg.kbsrAddr := by decide

theorem test_witness_TrapRoutinesLeaveAllButTheirOwnContract :
    Instr.trapOut.isTrap = true ∧ Instr.trapOut ≠ .trapGetc ∧ Instr.trapOut ≠ .trapIn ∧ Instr.trapOut ≠ .trap 0x20#8 ∧
    Instr.trapOut ≠ .trap 0x23#8 ∧ (7#3 : RegIdx) ≠ 0#3 ∧ Instr.trapGetc.isTrap = true := by decide

theorem test_witness_GetcTakesTheOldestCharacter : sKbsrIn.inq = 0x41#8 :: [] := by decide

theorem test_witness_InPromptsTakesACharacterAndEchoesIt : sKbsrIn.inq = 0x41#8 :: [] := by decide

theorem test_witness_GetcAndInAreHeldWhileNoCharacterWaits : sAdd.inq = [] := by decide

/-- Held with no character coming, and held with one that arrives at this boundary. -/
theorem test_witness_AHeldReadCompletesWhenACharacterArrives :
    (sAdd.cfg.valid = true ∧ sAdd.run = true ∧ (sAdd.setHeld (some .getc)).resetNext = false ∧
      (sAdd.setHeld (some .getc)).held = some .getc ∧ (sAdd.setHeld (some .getc)).envMove.inq = []) ∧
    ({ sAdd with held := some .inp, env := [.arrive [0x61#8]] }.resetNext = false ∧
      { sAdd with held := some .inp, env := [.arrive [0x61#8]] }.held = some .inp ∧
      { sAdd with held := some .inp, env := [.arrive [0x61#8]] }.envMove.inq = 0x61#8 :: []) := by decide

/-- Scenario D, and the empty string. -/
theorem test_witness_PutsWritesTheStringAtR0 :
    StringAt (boot 0x3000#16 0xF022#16 0b100#3 [(0#3, 0x4000#16)] [(0x4000#16, 0x0048#16), (0x4001#16, 0x0049#16)] [])
      0x4000#16 [0x0048#16, 0x0049#16] ∧
    StringAt (boot 0x3000#16 0xF022#16 0b100#3 [(0#3, 0x4000#16)] [] []) 0x4000#16 [] ∧
    (boot 0x3000#16 0xF022#16 0b100#3 [(0#3, 0x4000#16)] [] []).reg 0#3 = 0x4000#16 := by
  refine ⟨⟨by decide, by decide, by decide, by decide, ?_⟩, ?_, by decide⟩
  · show State.rawRead _ _ = _
    decide
  · show State.rawRead _ _ = _
    decide

/-- V-T14. -/
theorem test_witness_PutspWritesThePackedStringAtR0 :
    StringAt (boot 0x3000#16 0xF024#16 0b010#3 [(0#3, 0x4000#16)] [(0x4000#16, 0x4948#16), (0x4001#16, 0x0021#16)] [])
      0x4000#16 [0x4948#16, 0x0021#16] ∧
    (boot 0x3000#16 0xF024#16 0b010#3 [(0#3, 0x4000#16)] [(0x4000#16, 0x4948#16), (0x4001#16, 0x0021#16)] []).reg 0#3 =
      0x4000#16 := by
  refine ⟨⟨by decide, by decide, by decide, by decide, ?_⟩, by decide⟩
  show State.rawRead _ _ = _
  decide

/-- A memory in which every cell from `lo` on, `n` of them, holds 1. -/
def ones (lo n : Nat) : Memory := (List.range' lo n).map (fun k => (k, 1#16))

theorem read_ones (n : Nat) : ∀ lo k : Nat, lo ≤ k → k < lo + n → Memory.read (ones lo n) k = 1#16 := by
  induction n with
  | zero => intro lo k h1 h2; omega
  | succ n ih =>
    intro lo k h1 h2
    have e : ones lo (n + 1) = (lo, 1#16) :: ones (lo + 1) n := by simp [ones, List.range'_succ]
    rw [e]
    simp only [Memory.read]
    split
    · rfl
    · exact ih (lo + 1) k (by omega) (by omega)

/-- Every cell of memory holds 1. -/
theorem noZero_ones : NoZeroCell { sAdd with mem := ones 0 65536 } := by
  intro a h
  have h1 : Memory.read (ones 0 65536) a.toNat = 1#16 := read_ones 65536 0 a.toNat (Nat.zero_le _) (by have := a.isLt; omega)
  have h2 : Memory.read (ones 0 65536) a.toNat = 0#16 := h
  rw [h1] at h2
  exact absurd h2 (by decide)

theorem test_witness_AWalkWithoutAZeroCellNeverCompletes :
    NoZeroCell { sAdd with mem := ones 0 65536 } ∧ sAdd.cfg.valid = true ∧ sAdd.run = true ∧ sAdd.resetNext = false ∧
    NoZeroCell { sAdd with mem := ones 0 65536, held := some .puts } ∧
    NoZeroCell { sAdd with mem := ones 0 65536, held := some .putsp } :=
  ⟨noZero_ones, by decide, by decide, by decide, noZero_ones, noZero_ones⟩

/-- A word for each of the six vectors (one with bits 11:8 set, V-T6), and the vectors next to them and at both ends. -/
theorem test_witness_TheVectorSelectsTheRoutine :
    (opField 0xF020#16 = 0xF#4 ∧ (0xF020#16).setWidth 8 = 0x20#8) ∧ (opField 0xFF21#16 = 0xF#4 ∧ (0xFF21#16).setWidth 8 = 0x21#8) ∧
    (opField 0xF022#16 = 0xF#4 ∧ (0xF022#16).setWidth 8 = 0x22#8) ∧ (opField 0xF023#16 = 0xF#4 ∧ (0xF023#16).setWidth 8 = 0x23#8) ∧
    (opField 0xF024#16 = 0xF#4 ∧ (0xF024#16).setWidth 8 = 0x24#8) ∧ (opField 0xF025#16 = 0xF#4 ∧ (0xF025#16).setWidth 8 = 0x25#8) ∧
    (opField 0xF01F#16 = 0xF#4 ∧ ((0xF01F#16).setWidth 8).toNat < 0x20) ∧
    (opField 0xF026#16 = 0xF#4 ∧ 0x25 < ((0xF026#16).setWidth 8).toNat) ∧
    (0x1F#8).toNat < 0x20 ∧ 0x25 < (0x26#8).toNat ∧ (0x00#8).toNat < 0x20 ∧ 0x25 < (0xFF#8).toNat := by decide

/-- V-R2 and V-R4. -/
theorem test_witness_ReservedOpcodesAreNoOps :
    ((boot 0x3000#16 0x8FFF#16 0b010#3 [] [] []).Fetches ∧
      0x3000#16 ≠ (boot 0x3000#16 0x8FFF#16 0b010#3 [] [] []).cfg.kbsrAddr ∧
      opField ((boot 0x3000#16 0x8FFF#16 0b010#3 [] [] []).rawRead 0x3000#16) = 0x8#4) ∧
    ((boot 0x3000#16 0xDABC#16 0b000#3 [] [] []).Fetches ∧
      0x3000#16 ≠ (boot 0x3000#16 0xDABC#16 0b000#3 [] [] []).cfg.kbsrAddr ∧
      opField ((boot 0x3000#16 0xDABC#16 0b000#3 [] [] []).rawRead 0x3000#16) = 0xD#4) := by decide

theorem test_witness_InputIsTakenInOrderAndOutputOnlyGrows :
    (∃ t, exec .trapGetc sKbsrIn = .next t) ∧ Instr.trapGetc.outputs = false ∧ (∃ t, exec .trapOut sKbsrIn = .next t) :=
  ⟨⟨_, rfl⟩, rfl, ⟨_, rfl⟩⟩

theorem test_witness_OnlyTheTabledRegistersAreWritten :
    (∃ t, exec (.addReg 0#3 1#3 2#3) sAdd = .next t) ∧ 1#3 ∉ (Instr.addReg 0#3 1#3 2#3).writes := ⟨⟨_, rfl⟩, by decide⟩

/-- A register that the instruction neither reads nor writes, and one that it writes and does not read, of each kind: DR of ADD,
R7 of JSR and of JSRR with another base, R0 of GETC. -/
theorem test_witness_RegistersNotTabledAsReadDoNotMatter :
    (3#3 ∉ (Instr.addReg 0#3 1#3 2#3).reads ∧ 0#3 ∉ (Instr.addReg 0#3 1#3 2#3).reads ∧
      ∃ t, exec (.addReg 0#3 1#3 2#3) sAdd = .next t) ∧
    (7#3 ∉ (Instr.jsr 0#11).reads ∧ ∃ t, exec (.jsr 0#11) sAdd = .next t) ∧
    (7#3 ∉ (Instr.jsrr 1#3).reads ∧ ∃ t, exec (.jsrr 1#3) sAdd = .next t) ∧
    (0#3 ∉ Instr.trapGetc.reads ∧ ∃ t, exec .trapGetc sKbsrIn = .next t) :=
  ⟨⟨by decide, by decide, _, rfl⟩, ⟨by decide, _, rfl⟩, ⟨by decide, _, rfl⟩, ⟨by decide, _, rfl⟩⟩

/-- Running, held, and halted, with a reset coming. -/
theorem test_witness_ResetRestartsTheEngineFromAnyCondition :
    sAdd.cfg.valid = true ∧ { sAdd with env := [.reset] }.env = .reset :: [] ∧
    { sAdd with env := [.reset], held := some .getc }.env = .reset :: [] ∧
    { sAdd with env := [.reset], run := false }.env = .reset :: [] := by decide

theorem test_witness_AHaltedMachineStaysFrozenUntilReset :
    sAdd.stop.cfg.valid = true ∧ sAdd.stop.run = false ∧ sAdd.stop.resetNext = false := by decide

/-- A step that halts (V-T17) and one that does not. -/
theorem test_witness_ARunEndsExactlyAtTrapHalt :
    ((boot 0x3004#16 0xF025#16 0b100#3 [] [] []).cfg.valid = true ∧ (boot 0x3004#16 0xF025#16 0b100#3 [] [] []).run = true ∧
      (boot 0x3004#16 0xF025#16 0b100#3 [] [] []).resetNext = false ∧
      (after (boot 0x3004#16 0xF025#16 0b100#3 [] [] [])).map (fun t => t.run) = some false) ∧
    (sAdd.cfg.valid = true ∧ sAdd.run = true ∧ sAdd.resetNext = false ∧ (after sAdd).map (fun t => t.run) = some true) := by decide

theorem test_witness_EveryStepKeepsTheInvariant : sAdd.Inv ∧ ∃ t, step sAdd = .next t := ⟨by decide, _, rfl⟩

theorem test_witness_TheInvariantHoldsAtTheStartOfARun :
    defaultConfig.valid = true ∧ Memory.wf [(0x3000, 0x1234#16), (0xFFFF, 0x0001#16)] = true ∧ Memory.wf [] = true := by decide

end Sys2Proof.Tests
end

section
/-! Which configurations a step accepts (R5, R34, decision D31). -/

namespace Sys2Proof

/-- The check compares the two keyboard addresses and nothing else. -/
theorem Config.valid_eq_true_iff (c : Config) : c.valid = true ↔ c.kbsrAddr ≠ c.kbdrAddr := by
  simp [Config.valid]

end Sys2Proof

namespace Sys2Proof.Machine

variable (s : State)

theorem step_of_not_valid (hv : ¬ s.cfg.valid = true) : step s = .refused .invalidConfig := by
  simp [step, State.checkedCycle, hv]

/-- Reset, halted, held or fetching: a step of an accepted configuration answers a next state. -/
theorem step_next_of_valid (hv : s.cfg.valid = true) : ∃ t, step s = .next t := by
  rcases step_cases s hv with ⟨_, h⟩ | ⟨_, _, h⟩ | ⟨_, _, _, _, h⟩ | ⟨_, h⟩
  · exact ⟨_, h⟩
  · exact ⟨_, h⟩
  · exact ⟨_, h⟩
  · exact ⟨_, h.trans (exec_eq _ _)⟩

theorem step_refused_iff : step s = .refused .invalidConfig ↔ ¬ s.cfg.valid = true := by
  refine ⟨fun h hv => ?_, step_of_not_valid s⟩
  obtain ⟨t, ht⟩ := step_next_of_valid s hv
  rw [ht] at h
  cases h

/-- Settles O10: a step is refused exactly when the configuration check fails, and the check fails exactly at equal keyboard
addresses. -/
theorem onlyEqualKeyboardAddressesAreRejected : Obligations.OnlyEqualKeyboardAddressesAreRejected := by
  intro s
  rw [step_refused_iff, Config.valid_eq_true_iff, not_not]

end Sys2Proof.Machine
end

section
/-! What an instruction can do to the state, said once for all 26 constructors: the shapes of `nextState`, each with the rows
of the tables of R12, R14, R17 and R24 that go with it. -/

namespace Sys2Proof

/-- The opcodes of BR, of JSR and JSRR, and of JMP and RET: the rows of R14 that name a target. -/
def Instr.HasTarget (i : Instr) : Prop := i.opcode = 0x0#4 ∨ i.opcode = 0x4#4 ∨ i.opcode = 0xC#4

end Sys2Proof

namespace Sys2Proof.Machine

/-- `u` is `s` after some `MemRead`s, none among them (R32). -/
inductive MemReads (s : State) : State → Prop where
  | none : MemReads s s
  | read {u : State} (a : Word) (h : MemReads s u) : MemReads s (u.readEffect a)

/-- `Effect i s t`: `t` has one of the shapes the instruction `i` can give to the state `s`. -/
inductive Effect (i : Instr) (s : State) : State → Prop where
  /-- ADD, AND, NOT, LEA and the loads: a result in the destination register, and its flags. -/
  | result {u : State} {dr : RegIdx} (v : Word) (hf : i.flagReg = some dr) (hw : i.writes = [dr]) (hu : MemReads s u) :
      Effect i s (u.writeResult dr v)
  /-- ST, STR, STI: one cell is stored. -/
  | store {u : State} (a v : Word) (hf : i.flagReg = none) (hu : MemReads s u) : Effect i s (u.memWrite a v)
  /-- BR, JMP, RET. -/
  | jump (target : Word) (hf : i.flagReg = none) (hp : i.HasTarget) : Effect i s (s.setPc target)
  /-- JSR, JSRR. -/
  | call (target : Word) (hf : i.flagReg = none) (hw : i.writes = [7#3]) (hp : i.HasTarget) :
      Effect i s (s.link.setPc target)
  /-- RTI, RES and the TRAP vectors of no service. -/
  | nothing (hf : i.flagReg = none) : Effect i s s
  /-- OUT, PUTS, PUTSP. -/
  | output (bs : List Byte) (h : Option Held) (hf : i.flagReg = none) (ho : i.outputs = true) :
      Effect i s ((s.outPut bs).setHeld h)
  /-- GETC. -/
  | getc (hf : i.flagReg = none) (hw : i.writes = [0#3]) : Effect i s s.getc
  /-- IN. -/
  | promptIn (hf : i.flagReg = none) (hw : i.writes = [0#3]) (ho : i.outputs = true) : Effect i s s.promptIn
  /-- HALT. -/
  | halt (hf : i.flagReg = none) (ho : i.outputs = true) : Effect i s s.halt

theorem effect_trap (v : BitVec 8) (s : State) : Effect (.trap v) s (nextState (.trap v) s) := by
  rcases trap_cases v with ⟨rfl, _⟩ | ⟨rfl, _⟩ | ⟨rfl, _⟩ | ⟨rfl, _⟩ | ⟨rfl, _⟩ | ⟨rfl, _⟩ | ⟨_, h⟩
  · exact .getc rfl rfl
  · exact .output _ s.held rfl rfl
  · exact .output _ _ rfl rfl
  · exact .promptIn rfl rfl rfl
  · exact .output _ _ rfl rfl
  · exact .halt rfl rfl
  · rw [← eq_nextState (h s)]
    exact .nothing rfl

/-- Every instruction has one of the shapes. -/
theorem effect_nextState (i : Instr) (s : State) : Effect i s (nextState i s) := by
  cases i with
  | br nzp off9 =>
    by_cases h : nzp &&& s.cond ≠ 0#3
    · rw [nextState, if_pos h]
      exact .jump _ rfl (.inl rfl)
    · rw [nextState, if_neg h]
      exact .nothing rfl
  | addReg | addImm | andReg | andImm | not | lea => exact .result _ rfl rfl .none
  | ld | ldr => exact .result _ rfl rfl (.read _ .none)
  | ldi => exact .result _ rfl rfl (.read _ (.read _ .none))
  | st | str => exact .store _ _ rfl .none
  | sti => exact .store _ _ rfl (.read _ .none)
  | jmp | ret => exact .jump _ rfl (.inr (.inr rfl))
  | jsr | jsrr => exact .call _ rfl rfl (.inr (.inl rfl))
  | rti | res => exact .nothing rfl
  | trap v => exact effect_trap v s
  | trapGetc => exact .getc rfl rfl
  | trapOut => exact .output _ s.held rfl rfl
  | trapPuts | trapPutsp => exact .output _ _ rfl rfl
  | trapIn => exact .promptIn rfl rfl rfl
  | trapHalt => exact .halt rfl rfl

/-- What `exec` answers has one of the shapes. -/
theorem effect_of_exec {i : Instr} {s t : State} (h : exec i s = .next t) : Effect i s t := by
  rw [eq_nextState h]
  exact effect_nextState i s

end Sys2Proof.Machine
end

section
/-! What every shape of instruction keeps: the configuration, the canonical form of memory, and what it can leave in `cond`, `pc`,
the registers and the two channels. -/

namespace Sys2Proof.Machine

/-! A row of `MemRead`s leaves all but the memory and the input queue. -/

namespace MemReads

variable {s u : State} (h : MemReads s u)
include h

theorem cfg : u.cfg = s.cfg := by
  induction h with
  | none => rfl
  | read a _ ih => rw [readEffect_cfg, ih]

theorem cond : u.cond = s.cond := by
  induction h with
  | none => rfl
  | read a _ ih => rw [readEffect_cond, ih]

theorem pc : u.pc = s.pc := by
  induction h with
  | none => rfl
  | read a _ ih => rw [readEffect_pc, ih]

theorem out : u.out = s.out := by
  induction h with
  | none => rfl
  | read a _ ih => rw [readEffect_out, ih]

theorem reg (r : RegIdx) : u.reg r = s.reg r := by
  induction h with
  | none => rfl
  | read a _ ih => rw [readEffect_reg, ih]

theorem wf (hm : Memory.wf s.mem = true) : Memory.wf u.mem = true := by
  induction h with
  | none => exact hm
  | read a _ ih => exact wf_readEffect _ a ih

/-- Characters are taken from the front only (R22). -/
theorem inq : u.inq <:+ s.inq := by
  induction h with
  | none => exact List.suffix_rfl
  | @read u a _ ih =>
    rcases readEffect_inq u a with e | e
    · rwa [e]
    · rw [e]
      exact (List.tail_suffix _).trans ih

end MemReads

/-- `IN` echoes the character it takes, and outputs nothing while it waits. -/
theorem finishIn_out (s : State) : ∃ bs, s.finishIn.out = s.out ++ bs := by
  cases h : s.inq with
  | nil => exact ⟨[], by rw [finishIn_of_empty s h]; simp⟩
  | cons c rest => exact ⟨[c], by rw [finishIn_of_cons s h]; rfl⟩

theorem promptIn_out (s : State) : ∃ bs, s.promptIn.out = s.out ++ bs := by
  obtain ⟨bs, h⟩ := finishIn_out (s.outPut s.cfg.inPrompt)
  exact ⟨s.cfg.inPrompt ++ bs, by rw [State.promptIn, h]; simp⟩

theorem promptIn_inq (s : State) : s.promptIn.inq = s.inq.tail := finishIn_inq _

theorem promptIn_reg_of_ne (s : State) {r : RegIdx} (hr : r ≠ 0#3) : s.promptIn.reg r = s.reg r :=
  finishIn_reg_of_ne _ hr

theorem link_reg (s : State) (r : RegIdx) : s.link.reg r = if r = 7#3 then s.pc else s.reg r := reg_setReg s _ _ _

namespace Effect

variable {i : Instr} {s t : State} (h : Effect i s t)
include h

theorem cfg : t.cfg = s.cfg := by
  cases h with
  | result v _ _ hu => exact hu.cfg
  | store a v _ hu => exact hu.cfg
  | jump | call | nothing | output | halt => rfl
  | getc => exact getc_cfg s
  | promptIn => exact promptIn_cfg s

theorem wf (hm : Memory.wf s.mem = true) : Memory.wf t.mem = true := by
  cases h with
  | result v _ _ hu => exact hu.wf hm
  | store a v _ hu => exact wf_memWrite _ a v (hu.wf hm)
  | jump | call | nothing | output | halt => exact hm
  | getc => rwa [getc_mem]
  | promptIn => rwa [promptIn_mem]

/-- R17: the destination register decides `cond`, and where there is none `cond` is left. -/
theorem cond_cases :
    (∃ d, i.flagReg = some d ∧ t.cond = condOf (t.reg d)) ∨ (i.flagReg = none ∧ t.cond = s.cond) := by
  cases h with
  | @result u dr v hf _ _ => exact .inl ⟨dr, hf, by rw [writeResult_cond, writeResult_reg_self]⟩
  | store a v hf hu => exact .inr ⟨hf, hu.cond⟩
  | jump _ hf | call _ hf | nothing hf | output _ _ hf | halt hf => exact .inr ⟨hf, rfl⟩
  | getc hf => exact .inr ⟨hf, getc_cond s⟩
  | promptIn hf => exact .inr ⟨hf, promptIn_cond s⟩

/-- R14: an instruction without a target in its row leaves the incremented PC. -/
theorem pc (hp : ¬ i.HasTarget) : t.pc = s.pc := by
  cases h with
  | result v _ _ hu => exact hu.pc
  | store a v _ hu => exact hu.pc
  | jump _ _ hp' | call _ _ _ hp' => exact absurd hp' hp
  | nothing | output | halt => rfl
  | getc => exact getc_pc s
  | promptIn => exact promptIn_pc s

/-- R12: the registers not tabled as written are left. -/
theorem reg {r : RegIdx} (hr : r ∉ i.writes) : t.reg r = s.reg r := by
  cases h with
  | result v _ hw hu => rw [writeResult_reg_of_ne _ _ (by simpa [hw] using hr), hu.reg]
  | store a v _ hu => rw [reg_memWrite, hu.reg]
  | call _ _ hw => rw [reg_setPc, link_reg, if_neg (by simpa [hw] using hr)]
  | jump | nothing | output | halt => rfl
  | getc _ hw => exact getc_reg_of_ne s (by simpa [hw] using hr)
  | promptIn _ hw => exact promptIn_reg_of_ne s (by simpa [hw] using hr)

/-- R22: characters are taken from the front only. -/
theorem inq : t.inq <:+ s.inq := by
  cases h with
  | result v _ _ hu => exact hu.inq
  | store a v _ hu => exact hu.inq
  | jump | call | nothing | output | halt => exact List.suffix_rfl
  | getc => rw [getc_inq]; exact List.tail_suffix _
  | promptIn => rw [promptIn_inq]; exact List.tail_suffix _

/-- R24: only the five routines output. -/
theorem out : ∃ bs, t.out = s.out ++ bs ∧ (i.outputs = false → bs = []) := by
  cases h with
  | result v _ _ hu => exact ⟨[], by simp [hu.out], fun _ => rfl⟩
  | store a v _ hu => exact ⟨[], by simp [hu.out], fun _ => rfl⟩
  | jump | call | nothing => exact ⟨[], (List.append_nil _).symm, fun _ => rfl⟩
  | getc => exact ⟨[], by simp, fun _ => rfl⟩
  | output bs _ _ ho => exact ⟨bs, rfl, by simp [ho]⟩
  | promptIn _ _ ho =>
    obtain ⟨bs, hbs⟩ := promptIn_out s
    exact ⟨bs, hbs, by simp [ho]⟩
  | halt _ ho => exact ⟨s.cfg.haltNotice, rfl, by simp [ho]⟩

end Effect

end Sys2Proof.Machine
end

section
/-! The invariant and the condition codes along steps (R27). -/

namespace Sys2Proof.Machine

variable (s : State)

/-! A fetch leaves all but `pc`, the memory and the input queue. -/

@[simp] theorem afterFetch_cond : s.afterFetch.cond = s.cond := readEffect_cond s s.pc
@[simp] theorem afterFetch_cfg : s.afterFetch.cfg = s.cfg := readEffect_cfg s s.pc
@[simp] theorem afterFetch_run : s.afterFetch.run = s.run := readEffect_run s s.pc
@[simp] theorem afterFetch_out : s.afterFetch.out = s.out := readEffect_out s s.pc
@[simp] theorem afterFetch_held : s.afterFetch.held = s.held := readEffect_held s s.pc
@[simp] theorem afterFetch_env : s.afterFetch.env = s.env := readEffect_env s s.pc
@[simp] theorem afterFetch_later : s.afterFetch.later = s.later := readEffect_later s s.pc
@[simp] theorem afterFetch_reg (r : RegIdx) : s.afterFetch.reg r = s.reg r := readEffect_reg s s.pc r

theorem wf_afterFetch (h : Memory.wf s.mem = true) : Memory.wf s.afterFetch.mem = true := wf_readEffect s s.pc h

/-! A held routine writes no memory and sets no flag (R96). -/

theorem resume_keeps (k : Held) : (s.resume k).cond = s.cond ∧ (s.resume k).mem = s.mem ∧ (s.resume k).cfg = s.cfg := by
  cases k with
  | getc => exact ⟨getc_cond s, getc_mem s, getc_cfg s⟩
  | inp => exact ⟨finishIn_cond s, finishIn_mem s, finishIn_cfg s⟩
  | puts => exact ⟨puts_cond s, puts_mem s, puts_cfg s⟩
  | putsp => exact ⟨putsp_cond s, putsp_mem s, putsp_cfg s⟩

/-- A reset clears the flags and leaves memory and configuration (R26, R135). -/
theorem envMove_of_reset (h : s.resetNext = true) :
    s.envMove.cond = 0#3 ∧ s.envMove.mem = s.mem ∧ s.envMove.cfg = s.cfg := by
  unfold State.resetNext at h
  split at h
  next rest he => simp [State.envMove, he]
  all_goals cases h

/-- A machine whose configuration is rejected takes no step. -/
theorem valid_of_step {s t : State} (h : step s = .next t) : s.cfg.valid = true := by
  by_contra hv
  rw [step_of_not_valid s hv] at h
  cases h

/-- What a step leaves in `cond`: 000 by a reset, what the flag updater computes, or what stood there (R17, R26). -/
theorem step_cond {s t : State} (h : step s = .next t) :
    (s.resetNext = true ∧ t.cond = 0#3) ∨ (∃ v, t.cond = condOf v) ∨ t.cond = s.cond := by
  rcases step_cases s (valid_of_step h) with ⟨hr, e⟩ | ⟨hr, _, e⟩ | ⟨k, hr, _, _, e⟩ | ⟨⟨_, _, _, hr⟩, e⟩
  all_goals rw [e] at h
  · cases h
    exact .inl ⟨hr, (envMove_of_reset s hr).1⟩
  · cases h
    exact .inr (.inr (envMove_cond s hr))
  · cases h
    obtain ⟨hc, _, _⟩ := resume_keeps s.envMove k
    exact .inr (.inr (hc.trans (envMove_cond s hr)))
  · rcases (effect_of_exec h).cond_cases with ⟨d, _, hc⟩ | ⟨_, hc⟩
    · exact .inr (.inl ⟨_, hc⟩)
    · exact .inr (.inr (by rw [hc, afterFetch_cond, envMove_cond s hr]))

/-- A step keeps the configuration, and the canonical form of memory. -/
theorem step_cfg_wf {s t : State} (h : step s = .next t) :
    t.cfg = s.cfg ∧ (Memory.wf s.mem = true → Memory.wf t.mem = true) := by
  rcases step_cases s (valid_of_step h) with ⟨hr, e⟩ | ⟨hr, _, e⟩ | ⟨k, hr, _, _, e⟩ | ⟨⟨_, _, _, hr⟩, e⟩
  all_goals rw [e] at h
  · cases h
    obtain ⟨_, hm, hc⟩ := envMove_of_reset s hr
    exact ⟨hc, fun hw => by rwa [hm]⟩
  · cases h
    exact ⟨envMove_cfg s hr, fun hw => by rwa [envMove_mem s hr]⟩
  · cases h
    obtain ⟨_, hm, hc⟩ := resume_keeps s.envMove k
    exact ⟨hc.trans (envMove_cfg s hr), fun hw => by rwa [hm, envMove_mem s hr]⟩
  · have he := effect_of_exec h
    exact ⟨by rw [he.cfg, afterFetch_cfg, envMove_cfg s hr],
      fun hw => he.wf (wf_afterFetch _ (by rwa [envMove_mem s hr]))⟩

/-- The flag updater sets exactly one flag (R16). -/
theorem condOneHot_condOf (v : Word) : condOneHot (condOf v) = true := by
  rcases condOf_cases v with ⟨_, h⟩ | ⟨_, h⟩ | ⟨_, _, h⟩ <;> rw [h] <;> decide

theorem condLegal_of_condOneHot {c : Cond} (h : condOneHot c = true) : condLegal c = true := by
  simp only [condOneHot, Bool.or_eq_true] at h
  simp only [condLegal, Bool.or_eq_true]
  tauto

/-- Settles O53: memory and configuration by `step_cfg_wf`, and of the three values `step_cond` names each is legal. -/
theorem everyStepKeepsTheInvariant : Obligations.EveryStepKeepsTheInvariant := by
  rintro s t ⟨hm, hv, hc⟩ h
  obtain ⟨hcfg, hwf⟩ := step_cfg_wf h
  refine ⟨hwf hm, by rwa [hcfg], ?_⟩
  rcases step_cond h with ⟨_, e⟩ | ⟨v, e⟩ | e <;> rw [e]
  · rfl
  · exact condLegal_of_condOneHot (condOneHot_condOf v)
  · exact hc

theorem launch_inv (cfg : Config) (m : Memory) (inq : List Byte) (env : List EnvMove) (later : Later)
    (hv : cfg.valid = true) (hm : Memory.wf m = true) : (State.launch cfg m inq env later).Inv := ⟨hm, hv, rfl⟩

/-- Settles O54: the reset state is a launch too, with the default configuration and no cell listed. -/
theorem theInvariantHoldsAtTheStartOfARun : Obligations.TheInvariantHoldsAtTheStartOfARun :=
  ⟨launch_inv defaultConfig [] [] [] .quiet (by decide) rfl, launch_inv⟩

end Sys2Proof.Machine
end

section
/-! The flags (R15 to R17, R27). -/

namespace Sys2Proof.Machine

variable (s : State)

/-! R16 by the unsigned value of the word. -/

theorem condOf_of_ge {v : Word} (h : 0x8000 ≤ v.toNat) : condOf v = condN := by
  simp [condOf, BitVec.msb_eq_decide, h]

theorem condOf_of_lt {v : Word} (h : v.toNat < 0x8000) : condOf v = if v = 0#16 then condZ else condP := by
  simp [condOf, BitVec.msb_eq_decide, h]

/-- Settles O17: `setcc` replaces `cond` by `condOf` of the register, and touches no other field. -/
theorem setccSetsExactlyOneFlagFromTheRegister : Obligations.SetccSetsExactlyOneFlagFromTheRegister := by
  intro s r
  refine ⟨condOf_of_ge, fun h => ?_, fun h1 h2 => ?_, condOneHot_condOf _, fun _ => rfl, rfl, fun _ => rfl, ⟨rfl, rfl⟩,
    ⟨rfl, rfl, rfl, rfl, rfl⟩⟩
  · exact (condOf_of_lt (by omega)).trans (if_pos (BitVec.eq_of_toNat_eq h))
  · refine (condOf_of_lt (by omega)).trans (if_neg fun h => ?_)
    rw [h] at h1
    simp at h1

/-! What stood in `cond` before is neither read by the address forms nor left by the flag updater. -/

@[simp] theorem pcRel_setCond {n : Nat} (c : Cond) (off : BitVec n) : (s.setCond c).pcRel off = s.pcRel off := rfl
@[simp] theorem baseOff_setCond (c : Cond) (b : RegIdx) (off6 : BitVec 6) :
    (s.setCond c).baseOff b off6 = s.baseOff b off6 := rfl

theorem load_setCond (c : Cond) (dr : RegIdx) (ea : Word) : (s.setCond c).load dr ea = s.load dr ea := by
  simp only [State.load, readEffect_setCond, readValue_setCond, writeResult_setCond]

theorem promptIn_setCond (c : Cond) : (s.setCond c).promptIn = s.promptIn.setCond c :=
  finishIn_setCond (s.outPut s.cfg.inPrompt) c

theorem trap_setCond (v : BitVec 8) (c : Cond) : nextState (.trap v) (s.setCond c) = (nextState (.trap v) s).setCond c := by
  rcases trap_cases v with ⟨rfl, _⟩ | ⟨rfl, _⟩ | ⟨rfl, _⟩ | ⟨rfl, _⟩ | ⟨rfl, _⟩ | ⟨rfl, _⟩ | ⟨_, h⟩
  · exact getc_setCond s c
  · rfl
  · exact lap_setCond s c _ _
  · exact promptIn_setCond s c
  · exact lap_setCond s c _ _
  · rfl
  · rw [← eq_nextState (h _), ← eq_nextState (h s)]

/-- An instruction that sets flags answers the very same state, whatever `cond` was. -/
theorem nextState_setCond_of_flagReg {i : Instr} {d : RegIdx} (hf : i.flagReg = some d) (c : Cond) :
    nextState i (s.setCond c) = nextState i s := by
  cases i with
  | addReg | addImm | andReg | andImm | not | lea => exact writeResult_setCond s c _ _
  | ld | ldr => exact load_setCond s c _ _
  | ldi dr off9 =>
    simp only [nextState, pcRel_setCond, readEffect_setCond, readValue_setCond, load_setCond]
  | _ => cases hf

/-- An instruction that sets no flag and is not BR carries `cond` along. -/
theorem nextState_setCond_of_no_flagReg {i : Instr} (hf : i.flagReg = none) (hb : ∀ nzp off9, i ≠ .br nzp off9) (c : Cond) :
    nextState i (s.setCond c) = (nextState i s).setCond c := by
  cases i with
  | br nzp off9 => exact absurd rfl (hb nzp off9)
  | sti sr off9 =>
    simp only [nextState, pcRel_setCond, readEffect_setCond, readValue_setCond, reg_setCond, memWrite_setCond]
  | st | str | jsr | jsrr | jmp | ret | rti | res | trapOut | trapHalt => rfl
  | trap v => exact trap_setCond s v c
  | trapGetc => exact getc_setCond s c
  | trapPuts | trapPutsp => exact lap_setCond s c _ _
  | trapIn => exact promptIn_setCond s c
  | _ => cases hf

/-- Settles O18: the shapes of `Effect` say who writes `cond`; that only BR reads it is `nextState_setCond_of_flagReg` for the
seven and `nextState_setCond_of_no_flagReg` for the rest. -/
theorem onlySevenInstructionsWriteFlagsAndOnlyBranchReadsThem :
    Obligations.OnlySevenInstructionsWriteFlagsAndOnlyBranchReadsThem := by
  refine ⟨fun i s t h => ?_, fun i s t c hb h => ⟨_, exec_eq i _, ?_⟩⟩
  · rcases (effect_of_exec h).cond_cases with ⟨d, hf, hc⟩ | ⟨hf, hc⟩
    · exact ⟨fun d' hd' => by rwa [← Option.some.inj (hf.symm.trans hd')], fun hn => by simp [hf] at hn⟩
    · exact ⟨fun d hd => by simp [hf] at hd, fun _ => hc⟩
  · rw [eq_nextState h]
    cases hf : i.flagReg with
    | some d => rw [nextState_setCond_of_flagReg s hf, setCond_cond_self]
    | none => exact setCond_of_eq_setCond (nextState_setCond_of_no_flagReg s hf hb c)

/-- Settles O20: what the flag updater computes is one flag, and a step that is no reset leaves that or the `cond` it found. -/
theorem exactlyOneFlagFromTheFirstFlagSettingInstructionOn :
    Obligations.ExactlyOneFlagFromTheFirstFlagSettingInstructionOn := by
  refine ⟨fun i s t hf h => ?_, fun s t hr hc h => ?_⟩
  · rcases (effect_of_exec h).cond_cases with ⟨d, _, e⟩ | ⟨hn, _⟩
    · rw [e]
      exact condOneHot_condOf _
    · exact absurd hn hf
  · rcases step_cond h with ⟨hr', _⟩ | ⟨v, e⟩ | e
    · simp [hr] at hr'
    · rw [e]
      exact condOneHot_condOf v
    · rwa [e]

/-- A step that fetches runs the decoded instruction. -/
theorem step_of_fetches (h : s.Fetches) : step s = exec (decode s.envMove.fetchWord) s.envMove.afterFetch := by
  obtain ⟨hv, hrun, hheld, hr⟩ := h
  rcases step_cases s hv with ⟨hr', _⟩ | ⟨_, hrun', _⟩ | ⟨k, _, _, hk, _⟩ | ⟨_, e⟩
  · simp [hr] at hr'
  · simp [hrun] at hrun'
  · simp [hheld] at hk
  · exact e

theorem decode_of_opField_br {w : Word} (h : opField w = 0x0#4) : decode w = .br (drField w) (off9Field w) := by
  simp [decode, h]

/-- While no flag is set BR falls through. -/
theorem exec_br_of_no_flag (nzp : Cond) (off9 : BitVec 9) (h : s.cond = 0#3) : exec (.br nzp off9) s = .next s := by
  simp [exec_eq, nextState, h]

/-- Settles O19: the fetched word decodes to a BR, no bit of its field meets a set flag, and it falls through to the state
the fetch leaves. -/
theorem branchBeforeTheFirstFlagIsNeverTaken : Obligations.BranchBeforeTheFirstFlagIsNeverTaken := by
  intro s hf hc hop
  obtain ⟨-, -, -, hr⟩ := id hf
  have hc' : s.envMove.afterFetch.cond = 0#3 := by rw [afterFetch_cond, envMove_cond s hr, hc]
  refine ⟨s.envMove.afterFetch, ?_, ?_, hc', fun r => ?_⟩
  · rw [step_of_fetches s hf, decode_of_opField_br hop, exec_br_of_no_flag _ _ _ hc']
  · rw [afterFetch_pc, envMove_pc s hr]
  · rw [afterFetch_reg, reg_congr (envMove_x s hr)]

end Sys2Proof.Machine
end

section
/-! What each instruction leaves in `pc`, in the channels and in the registers (R12, R14, R22, R24). -/

namespace Sys2Proof.Machine

variable (s : State)

theorem nextState_br_pc (nzp : Cond) (off9 : BitVec 9) :
    (nextState (.br nzp off9) s).pc = if nzp &&& s.cond ≠ 0#3 then s.pcRel off9 else s.pc := by
  rw [nextState, apply_ite State.pc, setPc_pc]

theorem nextState_jsrr_pc (b : RegIdx) : (nextState (.jsrr b) s).pc = if b = 7#3 then s.pc else s.reg b := link_reg s b

/-- Settles O27: row by row for the control instructions, and `Effect.pc` for all others. -/
theorem eachInstructionLeavesPcAsTabled : Obligations.EachInstructionLeavesPcAsTabled := by
  intro i s t h
  have hrest := (effect_of_exec h).pc
  obtain rfl := eq_nextState h
  refine ⟨?_, ?_, ?_, ?_, ?_, fun h0 h4 hC => hrest fun ht => ?_⟩
  · rintro nzp off9 rfl
    exact nextState_br_pc s nzp off9
  · rintro b rfl
    rfl
  · rintro rfl
    rfl
  · rintro off11 rfl
    rfl
  · rintro b rfl
    exact nextState_jsrr_pc s b
  · rcases ht with h | h | h
    · exact h0 h
    · exact h4 h
    · exact hC h

/-- Settles O46, by the shapes of `Effect`. -/
theorem inputIsTakenInOrderAndOutputOnlyGrows : Obligations.InputIsTakenInOrderAndOutputOnlyGrows := by
  intro i s t h
  have he := effect_of_exec h
  obtain ⟨taken, ht⟩ := he.inq
  exact ⟨⟨taken, ht.symm⟩, he.out⟩

/-- Settles O47, by the shapes of `Effect`. -/
theorem onlyTheTabledRegistersAreWritten : Obligations.OnlyTheTabledRegistersAreWritten :=
  fun _ _ _ h _ hr => (effect_of_exec h).reg hr

/-! Two states that differ at most in what the register `r` holds, and what keeps them so. -/

/-- `t'` and `t` are equal once `r` holds the same in both. -/
def SameUpTo (r : RegIdx) (t' t : State) : Prop := ∀ w : Word, t'.setReg r w = t.setReg r w

namespace SameUpTo

variable {s} {r : RegIdx} {v : Word}

/-- An operation that carries the register along. -/
theorem of_eq_setReg {t' t : State} (h : t' = t.setReg r v) : SameUpTo r t' t := by
  intro w
  rw [h, setReg_setReg]

/-- A write of `d`, whether `d` is `r` or not. -/
theorem write (s : State) (d : RegIdx) (x : Word) : SameUpTo r ((s.setReg r v).setReg d x) (s.setReg d x) := by
  intro w
  by_cases hd : d = r
  · rw [hd, setReg_setReg, setReg_setReg, setReg_setReg]
  · rw [setReg_comm _ _ _ hd, setReg_comm _ _ _ hd, setReg_setReg]

/-! What follows a write in the same step sets other fields, so it keeps the states so. -/

theorem writeResult (dr : RegIdx) (x : Word) : SameUpTo r ((s.setReg r v).writeResult dr x) (s.writeResult dr x) := by
  intro w
  rw [writeResult_eq, writeResult_eq]
  exact congrArg (State.setCond · (condOf x)) (write s dr x w)

theorem load (dr : RegIdx) (ea : Word) : SameUpTo r ((s.setReg r v).load dr ea) (s.load dr ea) := by
  simp only [State.load, readEffect_setReg, readValue_setReg]
  exact writeResult dr _

theorem call (target : Word) : SameUpTo r ((s.setReg r v).link.setPc target) (s.link.setPc target) :=
  fun w => congrArg (State.setPc · target) (write s 7#3 s.pc w)

theorem getc : SameUpTo r (s.setReg r v).getc s.getc := by
  cases hq : s.inq with
  | nil =>
    rw [getc_of_empty s hq, getc_of_empty (s.setReg r v) hq]
    exact of_eq_setReg rfl
  | cons c rest =>
    rw [getc_of_cons s hq, getc_of_cons (s.setReg r v) hq]
    exact fun w => congrArg (State.setHeld · none) (write { s with inq := rest } 0#3 (zext8 c) w)

theorem finishIn : SameUpTo r (s.setReg r v).finishIn s.finishIn := by
  cases hq : s.inq with
  | nil =>
    rw [finishIn_of_empty s hq, finishIn_of_empty (s.setReg r v) hq]
    exact of_eq_setReg rfl
  | cons c rest =>
    rw [finishIn_of_cons s hq, finishIn_of_cons (s.setReg r v) hq]
    exact fun w => congrArg (fun u : State => (u.outPut [c]).setHeld none) (write { s with inq := rest } 0#3 (zext8 c) w)

theorem promptIn : SameUpTo r (s.setReg r v).promptIn s.promptIn := finishIn (s := s.outPut s.cfg.inPrompt)

theorem outChar (h : 0#3 ≠ r) : SameUpTo r (s.setReg r v).outChar s.outChar :=
  of_eq_setReg (by rw [State.outChar, reg_setReg_of_ne s v h]; rfl)

theorem lap (h : 0#3 ≠ r) (chars : Word → List Byte) (k : Held) : SameUpTo r ((s.setReg r v).lap chars k) (s.lap chars k) :=
  of_eq_setReg (lap_setReg s v h.symm chars k)

theorem trap {vect : BitVec 8} (hr : r ∉ (Instr.trap vect).reads) :
    SameUpTo r (nextState (.trap vect) (s.setReg r v)) (nextState (.trap vect) s) := by
  have hne {q : RegIdx} (hq : q ∈ (Instr.trap vect).reads) : q ≠ r := ne_of_mem_of_not_mem hq hr
  rcases trap_cases vect with ⟨rfl, _⟩ | ⟨rfl, _⟩ | ⟨rfl, _⟩ | ⟨rfl, _⟩ | ⟨rfl, _⟩ | ⟨rfl, _⟩ | ⟨_, h⟩
  · exact getc
  · exact outChar (hne (.head _))
  · exact lap (hne (.head _)) _ _
  · exact promptIn
  · exact lap (hne (.head _)) _ _
  · exact of_eq_setReg rfl
  · rw [← eq_nextState (h _), ← eq_nextState (h s)]
    exact of_eq_setReg rfl

end SameUpTo

/-- JSRR reads its base after the link, so the link's R7 is no source either. -/
theorem link_reg_setReg {r b : RegIdx} (v : Word) (h : b ≠ r) : (s.setReg r v).link.reg b = s.link.reg b := by
  rw [link_reg, link_reg, setReg_pc, reg_setReg_of_ne s v h]

/-- R12: a register that the instruction does not read makes no difference but in what it holds itself. -/
theorem nextState_sameUpTo {i : Instr} {r : RegIdx} (v : Word) (hr : r ∉ i.reads) :
    SameUpTo r (nextState i (s.setReg r v)) (nextState i s) := by
  have hne {q : RegIdx} (hq : q ∈ i.reads) : q ≠ r := ne_of_mem_of_not_mem hq hr
  have hsrc {q : RegIdx} (hq : q ∈ i.reads) : (s.setReg r v).reg q = s.reg q := reg_setReg_of_ne s v (hne hq)
  cases i with
  | br nzp off9 =>
    exact .of_eq_setReg (apply_ite (State.setReg · r v) (nzp &&& s.cond ≠ 0#3) (s.setPc (s.pcRel off9)) s).symm
  | addReg dr sr1 sr2 | andReg dr sr1 sr2 =>
    rw [nextState, hsrc (.head _), hsrc (.tail _ (.head _))]
    exact .writeResult dr _
  | addImm dr sr1 imm5 | andImm dr sr1 imm5 | not dr sr1 =>
    rw [nextState, hsrc (.head _)]
    exact .writeResult dr _
  | lea dr off9 => exact .writeResult dr _
  | ld dr off9 => exact .load dr _
  | ldr dr b off6 =>
    rw [nextState, State.baseOff, hsrc (.head _)]
    exact .load dr _
  | ldi dr off9 =>
    simp only [nextState, State.pcRel, setReg_pc, readEffect_setReg, readValue_setReg]
    exact .load dr _
  | st sr off9 =>
    rw [nextState, hsrc (.head _)]
    exact .of_eq_setReg rfl
  | str sr b off6 =>
    rw [nextState, State.baseOff, hsrc (.head _), hsrc (.tail _ (.head _))]
    exact .of_eq_setReg rfl
  | sti sr off9 =>
    rw [nextState, hsrc (.head _), readEffect_setReg, readValue_setReg]
    exact .of_eq_setReg rfl
  | jsr off11 => exact .call _
  | jsrr b =>
    rw [nextState, State.jumpReg, link_reg_setReg s v (hne (.head _))]
    exact .call _
  | jmp | ret =>
    rw [nextState, State.jumpReg, hsrc (.head _)]
    exact .of_eq_setReg rfl
  | rti | res | trapHalt => exact .of_eq_setReg rfl
  | trap vect => exact .trap hr
  | trapGetc => exact .getc
  | trapOut => exact .outChar (hne (.head _))
  | trapPuts | trapPutsp => exact .lap (hne (.head _)) _ _
  | trapIn => exact .promptIn

/-- Settles O48: `exec` answers in both states, and the answers are the same up to the register. -/
theorem registersNotTabledAsReadDoNotMatter : Obligations.RegistersNotTabledAsReadDoNotMatter := by
  intro i s t r v hr h
  rw [eq_nextState h]
  exact ⟨_, exec_eq i _, nextState_sameUpTo s v hr⟩

end Sys2Proof.Machine
end

section
/-! The fetch, the start of a run and the halted machine (R13, R18, R26). -/

namespace Sys2Proof.Machine

/-- Settles O7: away from KBSR_ADDR the fetch is a plain read and the increment of `pc`; the fields a fetch leaves are left
at KBSR_ADDR too. -/
theorem fetchReadsTheCellAtPcAndIncrementsIt : Obligations.FetchReadsTheCellAtPcAndIncrementsIt := by
  intro s
  refine ⟨fun hf hpc => ?_, ?_, fun h => ?_, fun _ => rfl, fun _ => rfl, afterFetch_reg s, afterFetch_cond s, ?_,
    afterFetch_out s, fun hpc => ?_⟩
  · obtain ⟨-, -, -, hr⟩ := id hf
    have hpc' : s.envMove.pc ≠ s.envMove.cfg.kbsrAddr := by rwa [envMove_pc s hr, envMove_cfg s hr]
    obtain ⟨hw, ha⟩ := fetch_of_ne s.envMove hpc'
    rw [step_of_fetches s hf, hw, ha, envMove_pc s hr, rawRead_congr (envMove_mem s hr)]
  · simp [BitVec.toNat_add]
  · rw [afterFetch_pc, h]
    rfl
  · exact ⟨afterFetch_run s, afterFetch_held s, afterFetch_env s, afterFetch_later s, afterFetch_cfg s⟩
  · obtain ⟨hw, ha⟩ := fetch_of_ne s hpc
    rw [ha]
    exact ⟨hw, fun _ => rfl, rfl⟩

theorem launch_reg (cfg : Config) (m : Memory) (inq : List Byte) (env : List EnvMove) (later : Later) (r : RegIdx) :
    (State.launch cfg m inq env later).reg r = 0x0000#16 := by
  simp [State.reg, State.launch]

/-- Settles O49: `State.launch` sets each field so. -/
theorem runsStartInTheResetState : Obligations.RunsStartInTheResetState :=
  ⟨fun cfg m inq env later => ⟨launch_reg cfg m inq env later, rfl, rfl, rfl, fun _ => rfl, rfl, rfl⟩, rfl⟩

/-- A halted machine with no reset coming answers what the environment's move leaves (R129). -/
theorem step_halted (s : State) (hv : s.cfg.valid = true) (hrun : s.run = false) (hr : s.resetNext = false) :
    step s = .next s.envMove := by
  rcases step_cases s hv with ⟨hr', _⟩ | ⟨_, _, e⟩ | ⟨_, _, hrun', _⟩ | ⟨⟨_, hrun', _⟩, _⟩
  · simp [hr] at hr'
  · exact e
  · simp [hrun] at hrun'
  · simp [hrun] at hrun'

/-- Settles O51: the environment's move is all that happens, and it only feeds the input queue. -/
theorem aHaltedMachineStaysFrozenUntilReset : Obligations.AHaltedMachineStaysFrozenUntilReset := by
  intro s hv hrun hr
  exact ⟨s.envMove, step_halted s hv hrun hr, (envMove_run s hr).trans hrun, reg_congr (envMove_x s hr), envMove_pc s hr,
    envMove_cond s hr, envMove_mem s hr, envMove_out s hr, envMove_held s hr, envMove_cfg s hr⟩

end Sys2Proof.Machine
end

section
/-! Memory and the keyboard registers (R30 to R47). -/

namespace Sys2Proof.Machine

variable (s : State)

/-! `MemWrite` (R35) and the address forms (R31). -/

theorem storesAt_memWrite (a v : Word) : StoresAt a v s (s.memWrite a v) :=
  ⟨rawRead_memWrite_self s a v, fun _ hb => rawRead_memWrite_of_ne s v hb, fun _ => rfl, rfl, rfl, ⟨rfl, rfl⟩,
    ⟨rfl, rfl, rfl, rfl, rfl⟩⟩

/-- Settles O13: the store and its frame are `storesAt_memWrite`, and the three instructions answer such a write. -/
theorem memWriteIsAPlainStoreAtEveryAddress : Obligations.MemWriteIsAPlainStoreAtEveryAddress :=
  ⟨storesAt_memWrite, fun _ _ _ _ _ => ⟨exec_eq _ _, exec_eq _ _, exec_eq _ _⟩⟩

/-- Settles O11: both address forms are sums of words, the two wrap examples are such sums, and `exec` answers always. -/
theorem addressArithmeticWrapsAndNoAccessFaults : Obligations.AddressArithmeticWrapsAndNoAccessFaults := by
  refine ⟨fun s off9 => BitVec.toNat_add _ _, fun s b off6 => BitVec.toNat_add _ _, fun s h => ⟨?_, ?_⟩, fun s h => ?_,
    fun i s => ⟨_, exec_eq i s⟩⟩
  · rw [afterFetch_pc, h]
    rfl
  · rw [State.pcRel, h]
    rfl
  · rw [State.pcRel, h]
    rfl

/-! `MemRead` (R32). -/

theorem sameControl_readEffect (a : Word) : SameControl s (s.readEffect a) :=
  ⟨readEffect_run s a, readEffect_held s a, readEffect_env s a, readEffect_later s a, readEffect_cfg s a⟩

/-- What a poll that finds no character leaves: KBSR is idle and every other cell, KBDR among them, is kept. -/
theorem poll_cells_of_empty (h : s.inq = []) :
    s.poll.rawRead s.cfg.kbsrAddr = kbsrIdle ∧ SameMemBut s.cfg.kbsrAddr s s.poll ∧ s.poll.inq = [] := by
  rw [poll_of_empty s h]
  exact ⟨rawRead_memWrite_self s _ _, fun _ ha => rawRead_memWrite_of_ne s _ ha, h⟩

/-- What a poll that finds a character leaves: the later write, to KBDR, is not to KBSR. -/
theorem poll_cells_of_cons (hv : s.cfg.valid = true) {c : Byte} {rest : List Byte} (h : s.inq = c :: rest) :
    s.poll.rawRead s.cfg.kbsrAddr = kbsrReady ∧ s.poll.rawRead s.cfg.kbdrAddr = zext8 c ∧ s.poll.inq = rest := by
  have hne : s.cfg.kbsrAddr ≠ s.cfg.kbdrAddr := (Config.valid_eq_true_iff _).mp hv
  rw [poll_of_cons s h]
  refine ⟨?_, rawRead_memWrite_self _ _ _, rfl⟩
  rw [rawRead_memWrite_of_ne _ _ hne, rawRead_memWrite_self]

/-- Settles O12: away from KBSR_ADDR a read does nothing; at KBSR_ADDR it is a poll, by whether a character waits; and the loads,
STI and the fetch are defined by such reads. -/
theorem memReadPollsTheKeyboardAtKbsrOnly : Obligations.MemReadPollsTheKeyboardAtKbsrOnly := by
  refine ⟨fun s a ha => ⟨readValue_of_ne s ha, readEffect_of_ne s ha⟩, fun s _ h => ?_, fun s c rest hv h => ?_,
    fun s a => ⟨readEffect_reg s a, readEffect_pc s a, readEffect_cond s a, readEffect_out s a, sameControl_readEffect s a⟩,
    fun s => ⟨rfl, rfl⟩, fun s dr b sr off9 off6 => ⟨exec_eq _ _, exec_eq _ _, exec_eq _ _, exec_eq _ _⟩⟩
  · rw [State.readValue, readEffect_kbsr]
    obtain ⟨hkbsr, hrest, hinq⟩ := poll_cells_of_empty s h
    exact ⟨hkbsr, hkbsr, hrest, hinq⟩
  · rw [State.readValue, readEffect_kbsr]
    obtain ⟨hkbsr, hkbdr, hinq⟩ := poll_cells_of_cons s hv h
    exact ⟨hkbsr, hkbsr, hkbdr, fun a => rawRead_poll_of_ne s, hinq⟩

/-! The fetch from KBSR_ADDR (R37, decision D8). -/

theorem exec_decode_kbsrIdle : exec (decode kbsrIdle) s = .next s := by
  have hd : decode kbsrIdle = .br 0#3 0#9 := by decide
  rw [hd, exec_eq, nextState, BitVec.zero_and, if_neg (not_not.mpr rfl)]

theorem exec_decode_kbsrReady : exec (decode kbsrReady) s = .next s := by
  have hd : decode kbsrReady = .rti := by decide
  rw [hd, exec_eq, nextState]

/-- Whether or not a character waits, the word a read of KBSR_ADDR returns does nothing: 0x0000 is a BR that names no flag, and
0x8000 is RTI. -/
theorem exec_decode_readValue_kbsr (hv : s.cfg.valid = true) (u : State) :
    exec (decode (s.readValue s.cfg.kbsrAddr)) u = .next u := by
  rw [readValue_kbsr s hv]
  split
  · exact exec_decode_kbsrIdle u
  · exact exec_decode_kbsrReady u

/-- A fetch from KBSR_ADDR is a poll and the increment of `pc`. -/
theorem afterFetch_of_kbsr (h : s.pc = s.cfg.kbsrAddr) : s.afterFetch = s.poll.setPc (s.pc + 1#16) := by
  rw [State.afterFetch, h, readEffect_kbsr]

/-- A step that fetches from KBSR_ADDR does nothing but fetch. -/
theorem step_of_fetch_kbsr (hf : s.Fetches) (h : s.envMove.pc = s.envMove.cfg.kbsrAddr) :
    step s = .next s.envMove.afterFetch := by
  obtain ⟨hv, -, -, hr⟩ := id hf
  rw [step_of_fetches s hf, State.fetchWord, h, exec_decode_readValue_kbsr _ (by rwa [envMove_cfg s hr])]

/-- Settles O8: the step is the fetch alone (`step_of_fetch_kbsr`), a poll with `pc` incremented; the environment's move before it
changes no register, cell or parameter. -/
theorem fetchFromKbsrPollsAndIsANoOp : Obligations.FetchFromKbsrPollsAndIsANoOp := by
  intro s hf hpc
  obtain ⟨hv, -, -, hr⟩ := id hf
  have hcfg := envMove_cfg s hr
  have hcell : ∀ a : Word, s.envMove.rawRead a = s.rawRead a := rawRead_congr (envMove_mem s hr)
  have hpc' : s.envMove.pc = s.envMove.cfg.kbsrAddr := by rw [envMove_pc s hr, hcfg, hpc]
  refine ⟨_, step_of_fetch_kbsr s hf hpc', ?_, fun r => ?_, ?_, sameControl_readEffect _ _, ?_, ?_⟩
  · rw [afterFetch_pc, envMove_pc s hr]
  · rw [afterFetch_reg, reg_congr (envMove_x s hr)]
  · rw [afterFetch_cond, envMove_cond s hr]
  · rw [afterFetch_out, envMove_out s hr]
  · rw [afterFetch_of_kbsr _ hpc', ← hcfg]
    refine ⟨fun a h1 h2 => ?_, fun h => ?_, fun c rest h => ?_⟩
    · rw [rawRead_setPc, rawRead_poll_of_ne _ h1 h2, hcell]
    · obtain ⟨hkbsr, hrest, hinq⟩ := poll_cells_of_empty _ h
      have hne := (Config.valid_eq_true_iff _).mp hv
      exact ⟨hinq, hkbsr, (hrest _ (by rw [hcfg]; exact hne.symm)).trans (hcell _)⟩
    · obtain ⟨hkbsr, hkbdr, hinq⟩ := poll_cells_of_cons _ (by rwa [hcfg]) h
      exact ⟨hinq, hkbsr, hkbdr⟩

/-! Which cells an instruction can change (R37). -/

/-- A row of `MemRead`s changes no cell but the two keyboard cells. -/
theorem MemReads.rawRead_of_ne {s u : State} (h : MemReads s u) {a : Word} (h1 : a ≠ s.cfg.kbsrAddr)
    (h2 : a ≠ s.cfg.kbdrAddr) : u.rawRead a = s.rawRead a := by
  induction h with
  | none => rfl
  | read b hu ih => rw [rawRead_readEffect_of_ne _ b (by rwa [hu.cfg]) (by rwa [hu.cfg]), ih]

theorem trap_mem (v : BitVec 8) : (nextState (.trap v) s).mem = s.mem := by
  rcases trap_cases v with ⟨rfl, _⟩ | ⟨rfl, _⟩ | ⟨rfl, _⟩ | ⟨rfl, _⟩ | ⟨rfl, _⟩ | ⟨rfl, _⟩ | ⟨_, h⟩
  · exact getc_mem s
  · exact outChar_mem s
  · exact puts_mem s
  · exact promptIn_mem s
  · exact putsp_mem s
  · exact halt_mem s
  · rw [← eq_nextState (h s)]

/-- An instruction that makes no access after the fetch leaves the memory as it is. -/
theorem nextState_mem_of_no_access {i : Instr} (h : i.accessesMem = false) : (nextState i s).mem = s.mem := by
  cases i with
  | br nzp off9 => rw [nextState, apply_ite State.mem, setPc_mem, ite_self]
  | addReg | addImm | andReg | andImm | not | lea | jsr | jsrr | jmp | ret | rti | res => rfl
  | trap v => exact trap_mem s v
  | trapGetc => exact getc_mem s
  | trapIn => exact promptIn_mem s
  | trapOut | trapPuts | trapPutsp | trapHalt => rfl
  | ld | ldi | ldr | st | sti | str => cases h

/-- The loads write no cell but by polling, and the stores besides only the cell `storeAddr` names. -/
theorem nextState_rawRead_of_access {i : Instr} (h : i.accessesMem = true) {a : Word} (hs : i.storeAddr s ≠ some a)
    (h1 : a ≠ s.cfg.kbsrAddr) (h2 : a ≠ s.cfg.kbdrAddr) : (nextState i s).rawRead a = s.rawRead a := by
  have hne {d : Word} (hd : i.storeAddr s = some d) : a ≠ d := fun e => hs (e ▸ hd)
  cases i with
  | ld | ldr => exact (MemReads.none.read _).rawRead_of_ne h1 h2
  | ldi => exact ((MemReads.none.read _).read _).rawRead_of_ne h1 h2
  | st | str => exact rawRead_memWrite_of_ne s _ (hne rfl)
  | sti => exact (rawRead_memWrite_of_ne _ _ (hne rfl)).trans ((MemReads.none.read _).rawRead_of_ne h1 h2)
  | _ => cases h

/-- Settles O14: an instruction that makes no access leaves the whole memory, and for the six others it is
`nextState_rawRead_of_access`. -/
theorem instructionsChangeNoOtherCell : Obligations.InstructionsChangeNoOtherCell := by
  intro i s t h
  rw [eq_nextState h]
  have hkeep (hi : i.accessesMem = false) : SameMem s (nextState i s) := rawRead_congr (nextState_mem_of_no_access s hi)
  refine ⟨hkeep, fun a hs h1 h2 => ?_⟩
  cases hi : i.accessesMem with
  | false => exact hkeep hi a
  | true => exact nextState_rawRead_of_access s hi hs h1 h2

/-! Self-modifying code (R47, R145). -/

/-- A step that fetches from another cell than KBSR runs the word in that cell. -/
theorem step_of_fetches_of_ne (hf : s.Fetches) (hpc : s.pc ≠ s.cfg.kbsrAddr) :
    step s = exec (decode (s.rawRead s.pc)) (s.envMove.setPc (s.pc + 1#16)) :=
  (fetchReadsTheCellAtPcAndIncrementsIt s).1 hf hpc

/-- With offset 0 ST stores to the cell the incremented PC addresses, the next to be fetched. -/
theorem exec_st_zero (sr : RegIdx) : exec (.st sr 0#9) s = .next (s.memWrite s.pc (s.reg sr)) := by
  have hea : s.pcRel 0#9 = s.pc := by rw [State.pcRel, show sext 0#9 = 0#16 from rfl, BitVec.add_zero]
  rw [exec_eq, nextState, hea]

/-- A word written to the cell the next step fetches from is the word that step runs. -/
theorem step_memWrite_pc (hf : s.Fetches) (hpc : s.pc ≠ s.cfg.kbsrAddr) (v : Word) :
    step (s.memWrite s.pc v) = exec (decode v) ((s.memWrite s.pc v).envMove.setPc (s.pc + 1#16)) := by
  rw [step_of_fetches_of_ne (s.memWrite s.pc v) hf hpc, memWrite_pc, rawRead_memWrite_self]

/-- The environment's move leaves a fetching machine fetching, unless a reset comes after it. -/
theorem fetches_envMove (hf : s.Fetches) (hr' : s.envMove.resetNext = false) : s.envMove.Fetches := by
  obtain ⟨hv, hrun, hheld, hr⟩ := hf
  exact ⟨by rwa [envMove_cfg s hr], (envMove_run s hr).trans hrun, (envMove_held s hr).trans hheld, hr'⟩

/-- Settles O16: the first step stores to the cell its successor's `pc` addresses (`exec_st_zero`) and, unless a reset comes, leaves
a machine that fetches again, and from that cell (`step_memWrite_pc`). -/
theorem storeToTheNextCellIsExecutedNext : Obligations.StoreToTheNextCellIsExecutedNext := by
  intro s sr hf hpc hnext hst
  obtain ⟨-, -, -, hr⟩ := id hf
  have hreg : ∀ r, s.envMove.reg r = s.reg r := reg_congr (envMove_x s hr)
  refine ⟨(s.envMove.setPc (s.pc + 1#16)).memWrite (s.pc + 1#16) (s.reg sr), ?_, rfl, hreg, rawRead_memWrite_self _ _ _,
    fun hr' => ?_⟩
  · rw [step_of_fetches_of_ne s hf hpc, hst, exec_st_zero, setPc_pc, reg_setPc, hreg]
  · have hpc' : s.pc + 1#16 ≠ s.envMove.cfg.kbsrAddr := by rwa [envMove_cfg s hr]
    have hadd : s.pc + 2#16 = s.pc + 1#16 + 1#16 := (BitVec.add_assoc s.pc 1#16 1#16).symm
    rw [hadd]
    exact step_memWrite_pc (s.envMove.setPc (s.pc + 1#16)) (fetches_envMove s hf hr') hpc' (s.reg sr)

end Sys2Proof.Machine
end

section
/-! The round trip from the instruction's side (R58, R64, R68), and the words the spec names. -/

namespace Sys2Proof

/-- Each canonical word is the word of its format, with the ignored bits as R68 fills them. -/
theorem decode_encode {i : Instr} (hi : i.wf = true) : decode (encode i) = i := by
  cases i with
  | br => exact decode_br _ _
  | addReg => exact decode_addReg _ _ _ _
  | addImm => exact decode_addImm _ _ _
  | ld => exact decode_ld _ _
  | st => exact decode_st _ _
  | jsr => exact decode_jsr _
  | jsrr => exact decode_jsrr _ _ _
  | andReg => exact decode_andReg _ _ _ _
  | andImm => exact decode_andImm _ _ _
  | ldr => exact decode_ldr _ _ _
  | str => exact decode_str _ _ _
  | not => exact decode_not _ _ _
  | ldi => exact decode_ldi _ _
  | sti => exact decode_sti _ _
  | jmp => exact (decode_jmp _ _ _).trans (decodeJmp_of_wf hi)
  | lea => exact decode_lea _ _
  | trap => exact (decode_trap _ _).trans (decodeTrap_of_wf hi)
  | rti | res | ret | trapGetc | trapOut | trapPuts | trapIn | trapPutsp | trapHalt => rfl

/-- Settles O1: format by format, `decode_encode`. -/
theorem decodeOfEncodeIsTheInstruction : Obligations.DecodeOfEncodeIsTheInstruction :=
  fun _ => decode_encode

/-- Settles O4: each word is a word of the format named, with these operands and these ignored bits. -/
theorem wordsOfTheSpecDecodeAsNamed : Obligations.WordsOfTheSpecDecodeAsNamed :=
  ⟨decode_addImm 1#3 2#3 5#5, decode_addReg 0#3 2#3 0#3 0#2, decode_ld 7#3 0x1FF#9, decode_jsrr 7#3 0#2 0#6, decode_jsr 0#11,
    decode_andImm 7#3 7#3 0x1F#5, decode_ldr 7#3 7#3 0x3F#6, decode_str 0#3 1#3 0#6, decode_rti 0xABC#12,
    decode_not 7#3 7#3 0x3F#6, decode_sti 1#3 1#9, decode_jmp 7#3 0#3 0#6, decode_jmp 2#3 0#3 0#6, decode_res 0x123#12,
    decode_lea 1#3 5#9, decode_trap 0x25#8 0#4, decode_trap 0x21#8 0xF#4, decode_trap 0xFF#8 0xF#4, decode_br 0b010#3 2#9⟩

end Sys2Proof
end

section
/-! Masks over bit vectors put together of parts, where the mask keeps or clears each part as a whole. -/

namespace Sys2Proof.Parts

variable {n g k j : Nat}

/-! What is left of a bit vector under the mask. -/

theorem and_keep_clear (w : BitVec (n + g)) : w &&& (BitVec.allOnes n ++ 0#g) = w.extractLsb' g n ++ 0#g := by
  conv_lhs => rw [← BitVec.extractLsb'_append_extractLsb' (x := w)]
  simp only [BitVec.and_append, BitVec.and_allOnes, BitVec.and_zero]

theorem and_keep_clear_keep (w : BitVec (n + g + k)) :
    w &&& (BitVec.allOnes n ++ 0#g ++ BitVec.allOnes k) = w.extractLsb' (k + g) n ++ 0#g ++ w.extractLsb' 0 k := by
  conv_lhs => rw [← BitVec.extractLsb'_append_extractLsb' (x := w),
    ← BitVec.extractLsb'_append_extractLsb'_eq_extractLsb' (x := w) rfl]
  simp only [BitVec.and_append, BitVec.and_allOnes, BitVec.and_zero]

theorem and_keep_clear_keep_clear (w : BitVec (n + g + k + j)) :
    w &&& (BitVec.allOnes n ++ 0#g ++ BitVec.allOnes k ++ 0#j) =
      w.extractLsb' (j + k + g) n ++ 0#g ++ w.extractLsb' j k ++ 0#j := by
  conv_lhs => rw [← BitVec.extractLsb'_append_extractLsb' (x := w),
    ← BitVec.extractLsb'_append_extractLsb'_eq_extractLsb' (x := w) (start₁ := j) (len₁ := k) rfl,
    ← BitVec.extractLsb'_append_extractLsb'_eq_extractLsb' (x := w) (start₁ := j + k) (len₁ := g) rfl]
  simp only [BitVec.and_append, BitVec.and_allOnes, BitVec.and_zero]

/-! What is equal under the mask differs in the cleared parts only. -/

theorem exists_append_of_masked {w : BitVec (n + g)} {a p : BitVec n} {x q : BitVec g}
    (h : w &&& (p ++ q) = (a ++ x) &&& (p ++ q)) : ∃ u y, w = u ++ y ∧ u &&& p = a &&& p ∧ y &&& q = x &&& q := by
  have ha := congrArg (BitVec.extractLsb' g n) h
  have hx := congrArg (BitVec.extractLsb' 0 g) h
  simp only [BitVec.extractLsb'_and, BitVec.extractLsb'_append_eq_left, BitVec.extractLsb'_append_eq_right] at ha hx
  exact ⟨_, _, BitVec.extractLsb'_append_extractLsb'.symm, ha, hx⟩

theorem exists_of_keep_clear {w : BitVec (n + g)} {a : BitVec n} {x : BitVec g}
    (h : w &&& (BitVec.allOnes n ++ 0#g) = (a ++ x) &&& (BitVec.allOnes n ++ 0#g)) : ∃ y : BitVec g, w = a ++ y := by
  obtain ⟨u, y, rfl, hu, -⟩ := exists_append_of_masked h
  simp only [BitVec.and_allOnes] at hu
  exact ⟨y, by rw [hu]⟩

theorem exists_of_keep_clear_keep {w : BitVec (n + g + k)} {a : BitVec n} {x : BitVec g} {b : BitVec k}
    (h : w &&& (BitVec.allOnes n ++ 0#g ++ BitVec.allOnes k) = (a ++ x ++ b) &&& (BitVec.allOnes n ++ 0#g ++ BitVec.allOnes k)) :
    ∃ y : BitVec g, w = a ++ y ++ b := by
  obtain ⟨u, c, rfl, hu, hc⟩ := exists_append_of_masked h
  obtain ⟨y, rfl⟩ := exists_of_keep_clear hu
  simp only [BitVec.and_allOnes] at hc
  exact ⟨y, by rw [hc]⟩

theorem exists_of_keep_clear_keep_clear {w : BitVec (n + g + k + j)} {a : BitVec n} {x : BitVec g} {b : BitVec k} {x' : BitVec j}
    (h : w &&& (BitVec.allOnes n ++ 0#g ++ BitVec.allOnes k ++ 0#j) =
      (a ++ x ++ b ++ x') &&& (BitVec.allOnes n ++ 0#g ++ BitVec.allOnes k ++ 0#j)) :
    ∃ (y : BitVec g) (z : BitVec j), w = a ++ y ++ b ++ z := by
  obtain ⟨u, z, rfl, hu, -⟩ := exists_append_of_masked h
  obtain ⟨y, rfl⟩ := exists_of_keep_clear_keep hu
  exact ⟨y, z, rfl⟩

end Sys2Proof.Parts
end

section
/-! The ignored bits (R61, R63). -/

namespace Sys2Proof

open Parts

section
variable {w : Word}

/-! What agrees with a word outside the bits a row of R61 lists is that word with other ignored bits. -/

theorem exists_of_masked_addReg {a : BitVec 11} {x : BitVec 2} {b : BitVec 3}
    (h : w &&& ~~~0x0018#16 = (a ++ x ++ b) &&& ~~~0x0018#16) : ∃ g : BitVec 2, w = a ++ g ++ b :=
  exists_of_keep_clear_keep (n := 11) (g := 2) (k := 3) h

theorem exists_of_masked_not {a : BitVec 10} {x : BitVec 6}
    (h : w &&& ~~~0x003F#16 = (a ++ x) &&& ~~~0x003F#16) : ∃ g : BitVec 6, w = a ++ g :=
  exists_of_keep_clear (n := 10) (g := 6) h

theorem exists_of_masked_jsrr {a : BitVec 5} {x : BitVec 2} {b : RegIdx} {x' : BitVec 6}
    (h : w &&& ~~~0x063F#16 = (a ++ x ++ b ++ x') &&& ~~~0x063F#16) :
    ∃ (g : BitVec 2) (g' : BitVec 6), w = a ++ g ++ b ++ g' :=
  exists_of_keep_clear_keep_clear (n := 5) (g := 2) (k := 3) (j := 6) h

theorem exists_of_masked_jmp {a : BitVec 4} {x : BitVec 3} {b : RegIdx} {x' : BitVec 6}
    (h : w &&& ~~~0x0E3F#16 = (a ++ x ++ b ++ x') &&& ~~~0x0E3F#16) :
    ∃ (g : BitVec 3) (g' : BitVec 6), w = a ++ g ++ b ++ g' :=
  exists_of_keep_clear_keep_clear (n := 4) (g := 3) (k := 3) (j := 6) h

theorem exists_of_masked_reserved {a : BitVec 4} {x : BitVec 12}
    (h : w &&& ~~~0x0FFF#16 = (a ++ x) &&& ~~~0x0FFF#16) : ∃ g : BitVec 12, w = a ++ g :=
  exists_of_keep_clear (n := 4) (g := 12) h

theorem exists_of_masked_trap {a x : BitVec 4} {v : BitVec 8}
    (h : w &&& ~~~0x0F00#16 = (a ++ x ++ v) &&& ~~~0x0F00#16) : ∃ g : BitVec 4, w = a ++ g ++ v :=
  exists_of_keep_clear_keep (n := 4) (g := 4) (k := 8) h

theorem decode_of_masked_jmp {b : RegIdx} (h : w &&& ~~~0x0E3F#16 = (0xC#4 ++ 0#3 ++ b ++ 0#6) &&& ~~~0x0E3F#16) :
    decode w = decodeJmp b := by
  obtain ⟨g, g', rfl⟩ := exists_of_masked_jmp h
  exact decode_jmp b g g'

theorem decode_of_masked_trap {v : BitVec 8} (h : w &&& ~~~0x0F00#16 = (0xF#4 ++ 0#4 ++ v) &&& ~~~0x0F00#16) :
    decode w = decodeTrap v := by
  obtain ⟨g, rfl⟩ := exists_of_masked_trap h
  exact decode_trap v g

/-- A row with ignored bits decodes to the same whatever they are; where a row has none, the word is the canonical one. -/
theorem decode_of_masked {i : Instr} (hi : i.wf = true) (h : w &&& ~~~i.ignoredBits = encode i &&& ~~~i.ignoredBits) :
    decode w = i := by
  cases i with
  | addReg dr sr1 sr2 =>
    obtain ⟨g, rfl⟩ := exists_of_masked_addReg h
    exact decode_addReg dr sr1 sr2 g
  | andReg dr sr1 sr2 =>
    obtain ⟨g, rfl⟩ := exists_of_masked_addReg h
    exact decode_andReg dr sr1 sr2 g
  | not dr sr =>
    obtain ⟨g, rfl⟩ := exists_of_masked_not h
    exact decode_not dr sr g
  | jsrr baseR =>
    obtain ⟨g, g', rfl⟩ := exists_of_masked_jsrr h
    exact decode_jsrr baseR g g'
  | rti =>
    obtain ⟨g, rfl⟩ := exists_of_masked_reserved (a := 0x8#4) (x := 0#12) h
    exact decode_rti g
  | res =>
    obtain ⟨g, rfl⟩ := exists_of_masked_reserved (a := 0xD#4) (x := 0#12) h
    exact decode_res g
  | jmp => exact (decode_of_masked_jmp h).trans (decodeJmp_of_wf hi)
  | ret => exact decode_of_masked_jmp (b := 7#3) h
  | trap => exact (decode_of_masked_trap h).trans (decodeTrap_of_wf hi)
  | trapGetc => exact decode_of_masked_trap (v := 0x20#8) h
  | trapOut => exact decode_of_masked_trap (v := 0x21#8) h
  | trapPuts => exact decode_of_masked_trap (v := 0x22#8) h
  | trapIn => exact decode_of_masked_trap (v := 0x23#8) h
  | trapPutsp => exact decode_of_masked_trap (v := 0x24#8) h
  | trapHalt => exact decode_of_masked_trap (v := 0x25#8) h
  | br | addImm | ld | st | jsr | andImm | ldr | str | ldi | sti | lea =>
    simp only [Instr.ignoredBits, BitVec.not_zero, BitVec.and_allOnes] at h
    rw [h, decode_encode hi]

end

/-- Settles O2: the first part is `decode_of_masked`, and the masks are those of `Instr.ignoredBits`. -/
theorem ignoredBitsSelectTheSameInstruction : Obligations.IgnoredBitsSelectTheSameInstruction := by
  refine ⟨fun _ _ => decode_of_masked, fun _ _ _ => ⟨rfl, rfl, rfl, rfl, rfl, rfl, rfl, rfl⟩, fun i hi => ?_⟩
  cases i with
  | trap | trapGetc | trapOut | trapPuts | trapIn | trapPutsp | trapHalt => rfl
  | _ => cases hi

end Sys2Proof
end

section
/-! The round trip from the word's side (R55, R57, R63). -/

namespace Sys2Proof

open Parts

/-! Fields side by side (R56). -/

theorem opField_append_linkBit (w : Word) : opField w ++ linkBit w = w.extractLsb' 11 5 :=
  BitVec.extractLsb'_append_extractLsb'_eq_extractLsb' rfl

theorem opField_append_drField (w : Word) : opField w ++ drField w = w.extractLsb' 9 7 :=
  BitVec.extractLsb'_append_extractLsb'_eq_extractLsb' rfl

theorem opField_append_drField_sr1Field (w : Word) : opField w ++ drField w ++ sr1Field w = w.extractLsb' 6 10 := by
  rw [opField_append_drField]
  exact BitVec.extractLsb'_append_extractLsb'_eq_extractLsb' rfl

theorem opField_append_drField_sr1Field_modeBit (w : Word) :
    opField w ++ drField w ++ sr1Field w ++ modeBit w = w.extractLsb' 5 11 := by
  rw [opField_append_drField_sr1Field]
  exact BitVec.extractLsb'_append_extractLsb'_eq_extractLsb' rfl

section
variable {w : Word} {op : BitVec 4} {f l : BitVec 1}

/-! The formats of R58 that ignore no bit: the fields are the word. -/

theorem append_off9Field (h : opField w = op) : op ++ drField w ++ off9Field w = w := by
  rw [← h, opField_append_drField]
  exact BitVec.extractLsb'_append_extractLsb'

theorem append_off6Field (h : opField w = op) : op ++ drField w ++ sr1Field w ++ off6Field w = w := by
  rw [← h, opField_append_drField_sr1Field]
  exact BitVec.extractLsb'_append_extractLsb'

theorem append_imm5Field (h : opField w = op) (hf : modeBit w = f) :
    op ++ drField w ++ sr1Field w ++ f ++ imm5Field w = w := by
  rw [← h, ← hf, opField_append_drField_sr1Field_modeBit]
  exact BitVec.extractLsb'_append_extractLsb'

theorem append_off11Field (h : opField w = op) (hl : linkBit w = l) : op ++ l ++ off11Field w = w := by
  rw [← h, ← hl, opField_append_linkBit]
  exact BitVec.extractLsb'_append_extractLsb'

/-! The masks of the table rows and of R61: the fields each keeps. -/

theorem and_opMask (h : opField w = op) : w &&& 0xF000#16 = op ++ 0#12 :=
  h ▸ and_keep_clear (n := 4) (g := 12) w

theorem and_modeMask (h : opField w = op) (hf : modeBit w = f) : w &&& 0xF020#16 = op ++ 0#6 ++ f ++ 0#5 :=
  h ▸ hf ▸ and_keep_clear_keep_clear (n := 4) (g := 6) (k := 1) (j := 5) w

theorem and_linkMask (h : opField w = op) (hl : linkBit w = l) : w &&& 0xF800#16 = op ++ l ++ 0#11 := by
  rw [← h, ← hl, opField_append_linkBit]
  exact and_keep_clear (n := 5) (g := 11) w

theorem and_addRegMask (h : opField w = op) (hf : modeBit w = f) :
    w &&& ~~~0x0018#16 = op ++ drField w ++ sr1Field w ++ f ++ 0#2 ++ sr2Field w := by
  rw [← h, ← hf, opField_append_drField_sr1Field_modeBit]
  exact and_keep_clear_keep (n := 11) (g := 2) (k := 3) w

theorem and_notMask (h : opField w = op) : w &&& ~~~0x003F#16 = op ++ drField w ++ sr1Field w ++ 0#6 := by
  rw [← h, opField_append_drField_sr1Field]
  exact and_keep_clear (n := 10) (g := 6) w

theorem and_jsrrMask (h : opField w = op) (hl : linkBit w = l) :
    w &&& ~~~0x063F#16 = op ++ l ++ 0#2 ++ sr1Field w ++ 0#6 := by
  rw [← h, ← hl, opField_append_linkBit]
  exact and_keep_clear_keep_clear (n := 5) (g := 2) (k := 3) (j := 6) w

theorem and_jmpMask (h : opField w = op) : w &&& ~~~0x0E3F#16 = op ++ 0#3 ++ sr1Field w ++ 0#6 :=
  h ▸ and_keep_clear_keep_clear (n := 4) (g := 3) (k := 3) (j := 6) w

theorem and_trapMask (h : opField w = op) : w &&& ~~~0x0F00#16 = op ++ 0#4 ++ vectField w :=
  h ▸ and_keep_clear_keep (n := 4) (g := 4) (k := 8) w

end

/-- `w` has the fixed bits of the row of `i`, and is the canonical word of `i` up to the ignored bits. -/
def Instr.Matches (i : Instr) (w : Word) : Prop :=
  w &&& i.rowMask = i.rowMatch ∧ encode i &&& ~~~i.ignoredBits = w &&& ~~~i.ignoredBits

section
variable {i : Instr} {w : Word}

theorem matches_of_encode_eq (hrow : w &&& i.rowMask = i.rowMatch) (he : encode i = w) : i.Matches w :=
  ⟨hrow, congrArg (· &&& ~~~i.ignoredBits) he⟩

/-- The case of all rows but NOT's: R68 fills the ignored bits with zeros. -/
theorem matches_of_masked_eq_encode (hrow : w &&& i.rowMask = i.rowMatch) (he : w &&& ~~~i.ignoredBits = encode i) :
    i.Matches w :=
  ⟨hrow, by rw [← he, BitVec.and_assoc, BitVec.and_self]⟩

theorem not_matches (h : opField w = 0x9#4) : (Instr.not (drField w) (sr1Field w)).Matches w := by
  refine ⟨and_opMask h, ?_⟩
  calc
    encode (.not (drField w) (sr1Field w)) &&& ~~~0x003F#16
    _ = (0x9#4 ++ drField w ++ sr1Field w ++ 0x3F#6) &&& (BitVec.allOnes 10 ++ 0#6) := rfl
    _ = 0x9#4 ++ drField w ++ sr1Field w ++ 0#6 := by rw [BitVec.and_append, BitVec.and_allOnes, BitVec.and_zero]
    _ = w &&& ~~~0x003F#16 := (and_notMask h).symm

/-- The canonical word of RET is the word JMP would have with R7; its row also fixes BaseR. -/
theorem decodeJmp_matches (h : opField w = 0xC#4) : (decodeJmp (sr1Field w)).Matches w := by
  have hw := and_jmpMask h
  unfold decodeJmp
  split
  next hb =>
    rw [hb] at hw
    exact matches_of_masked_eq_encode hw hw
  next => exact matches_of_masked_eq_encode (and_opMask h) hw

/-- The canonical word of each service is the word TRAP would have with its vector; the rows fix no ignored bit. -/
theorem decodeTrap_row (v : BitVec 8) :
    encode (decodeTrap v) = 0xF#4 ++ 0#4 ++ v ∧ (decodeTrap v).ignoredBits = 0x0F00#16 ∧
    (decodeTrap v).rowMask = ~~~0x0F00#16 &&& (decodeTrap v).rowMask ∧
    (decodeTrap v).rowMatch = (0xF#4 ++ 0#4 ++ v) &&& (decodeTrap v).rowMask := by
  revert v
  decide

theorem decodeTrap_matches (h : opField w = 0xF#4) : (decodeTrap (vectField w)).Matches w := by
  have hw := and_trapMask h
  obtain ⟨he, hi, hmask, hmatch⟩ := decodeTrap_row (vectField w)
  refine matches_of_masked_eq_encode ?_ ?_
  · rw [hmatch, ← hw, BitVec.and_assoc, ← hmask]
  · rw [hi, he, hw]

end

/-- Opcode by opcode (R57). -/
theorem decode_matches (w : Word) : (decode w).Matches w := by
  have hop : ∀ v : BitVec 4, v = 0x0#4 ∨ v = 0x1#4 ∨ v = 0x2#4 ∨ v = 0x3#4 ∨ v = 0x4#4 ∨ v = 0x5#4 ∨ v = 0x6#4 ∨ v = 0x7#4 ∨
      v = 0x8#4 ∨ v = 0x9#4 ∨ v = 0xA#4 ∨ v = 0xB#4 ∨ v = 0xC#4 ∨ v = 0xD#4 ∨ v = 0xE#4 ∨ v = 0xF#4 := by decide
  rcases hop (opField w) with h | h | h | h | h | h | h | h | h | h | h | h | h | h | h | h
  · rw [decode_op0 h]
    exact matches_of_encode_eq (and_opMask h) (append_off9Field h)
  · rw [decode_op1 h]
    split
    next hf => exact matches_of_masked_eq_encode (and_modeMask h hf) (and_addRegMask h hf)
    next hf =>
      have hf := (BitVec.eq_zero_or_eq_one _).resolve_left hf
      exact matches_of_encode_eq (and_modeMask h hf) (append_imm5Field h hf)
  · rw [decode_op2 h]
    exact matches_of_encode_eq (and_opMask h) (append_off9Field h)
  · rw [decode_op3 h]
    exact matches_of_encode_eq (and_opMask h) (append_off9Field h)
  · rw [decode_op4 h]
    split
    next hl => exact matches_of_encode_eq (and_linkMask h hl) (append_off11Field h hl)
    next hl =>
      have hl := (BitVec.eq_zero_or_eq_one _).resolve_right hl
      exact matches_of_masked_eq_encode (and_linkMask h hl) (and_jsrrMask h hl)
  · rw [decode_op5 h]
    split
    next hf => exact matches_of_masked_eq_encode (and_modeMask h hf) (and_addRegMask h hf)
    next hf =>
      have hf := (BitVec.eq_zero_or_eq_one _).resolve_left hf
      exact matches_of_encode_eq (and_modeMask h hf) (append_imm5Field h hf)
  · rw [decode_op6 h]
    exact matches_of_encode_eq (and_opMask h) (append_off6Field h)
  · rw [decode_op7 h]
    exact matches_of_encode_eq (and_opMask h) (append_off6Field h)
  · rw [decode_op8 h]
    exact matches_of_masked_eq_encode (and_opMask h) (and_opMask h)
  · rw [decode_op9 h]
    exact not_matches h
  · rw [decode_opA h]
    exact matches_of_encode_eq (and_opMask h) (append_off9Field h)
  · rw [decode_opB h]
    exact matches_of_encode_eq (and_opMask h) (append_off9Field h)
  · rw [decode_opC h]
    exact decodeJmp_matches h
  · rw [decode_opD h]
    exact matches_of_masked_eq_encode (and_opMask h) (and_opMask h)
  · rw [decode_opE h]
    exact matches_of_encode_eq (and_opMask h) (append_off9Field h)
  · rw [decode_opF h]
    exact decodeTrap_matches h

/-- Settles O3: the decoder gives well-formed terms (`decode_wf`), and each matches the word (`decode_matches`). -/
theorem everyWordMatchesTheRowItDecodesTo : Obligations.EveryWordMatchesTheRowItDecodesTo :=
  fun w => ⟨decode_wf w, decode_matches w⟩

end Sys2Proof
end

section
/-! The sign extension (R7, R60). -/

namespace Sys2Proof.Machine

theorem toNat_sext {n : Nat} (hn : n ≤ 16) (v : BitVec n) :
    (sext v).toNat = v.toNat + if v.msb then 2 ^ 16 - 2 ^ n else 0 := by
  rw [sext, BitVec.toNat_signExtend, BitVec.toNat_setWidth_of_le hn]

/-- Settles O5: `toNat_sext`, for every width up to 16. -/
theorem signExtensionIsModularSubtraction : Obligations.SignExtensionIsModularSubtraction := by
  intro w hw v
  have hw : w ≤ 16 := by revert w; decide
  have hpow : 2 ^ w ≤ 2 ^ 16 := Nat.pow_le_pow_right Nat.two_pos hw
  rw [toNat_sext hw]
  refine ⟨fun h => by simp [h], fun h => ?_⟩
  rw [if_pos h]
  omega

end Sys2Proof.Machine
end

section
/-! The operate instructions (R75 to R79). -/

namespace Sys2Proof.Machine

variable (s : State)

/-- `x[DR] <- v; setcc(DR)` has its whole effect in `DR` and `cond`. -/
theorem writesResult_writeResult (dr : RegIdx) (v : Word) : WritesResult dr v s (s.writeResult dr v) :=
  ⟨writeResult_reg_self s dr v, writeResult_cond s dr v, fun _ hr => writeResult_reg_of_ne s v hr, rfl, fun _ => rfl,
    ⟨rfl, rfl⟩, ⟨rfl, rfl, rfl, rfl, rfl⟩⟩

/-- An instruction whose meaning is `x[DR] <- v; setcc(DR)` answers a state with that effect. -/
theorem exec_writesResult {i : Instr} {dr : RegIdx} {v : Word} (h : nextState i s = s.writeResult dr v) :
    ∃ t, exec i s = .next t ∧ WritesResult dr v s t :=
  ⟨s.writeResult dr v, by rw [exec_eq, h], writesResult_writeResult s dr v⟩

/-- Settles O21: both forms are `exec_writesResult`, and the sum of words wraps. -/
theorem addWritesTheWrappedSumAndSetsTheFlags : Obligations.AddWritesTheWrappedSumAndSetsTheFlags := by
  intro s dr sr1 sr2 imm5
  obtain ⟨t, he, hw⟩ := exec_writesResult s (i := .addReg dr sr1 sr2) rfl
  have hdr : t.reg dr = s.reg sr1 + s.reg sr2 := hw.1
  exact ⟨⟨t, he, hw, by rw [hdr, BitVec.toNat_add]⟩, exec_writesResult s rfl⟩

/-- Settles O22: both forms are `exec_writesResult`. -/
theorem andWritesTheBitwiseAndAndSetsTheFlags : Obligations.AndWritesTheBitwiseAndAndSetsTheFlags :=
  fun s _ _ _ _ => ⟨exec_writesResult s rfl, exec_writesResult s rfl⟩

/-- Settles O23: `exec_writesResult`, and the complement of a word is 65535 minus it. -/
theorem notWritesTheComplementAndSetsTheFlags : Obligations.NotWritesTheComplementAndSetsTheFlags := by
  intro s dr sr
  obtain ⟨t, he, hw⟩ := exec_writesResult s (i := .not dr sr) rfl
  have hdr : t.reg dr = ~~~ s.reg sr := hw.1
  exact ⟨t, he, hw, by rw [hdr, BitVec.toNat_not]⟩

end Sys2Proof.Machine
end

section
/-! The control instructions (R80 to R84, R148). -/

namespace Sys2Proof.Machine

variable (s : State)

/-- `pc <- target` has its whole effect in `pc`. -/
theorem goesTo_setPc (target : Word) : GoesTo target s (s.setPc target) :=
  ⟨rfl, fun _ => rfl, rfl, fun _ => rfl, ⟨rfl, rfl⟩, ⟨rfl, rfl, rfl, rfl, rfl⟩⟩

/-- The link and then `pc <- target` have their whole effect in R7 and `pc`. -/
theorem callsTo_link_setPc (target : Word) : CallsTo target s (s.link.setPc target) :=
  ⟨rfl, reg_setReg_self s 7#3 s.pc, fun _ hr => reg_setReg_of_ne s s.pc hr, rfl, fun _ => rfl, ⟨rfl, rfl⟩,
    ⟨rfl, rfl, rfl, rfl, rfl⟩⟩

/-- An instruction whose meaning is `pc <- target` answers a state with that effect. -/
theorem exec_goesTo {i : Instr} {target : Word} (h : nextState i s = s.setPc target) :
    ∃ t, exec i s = .next t ∧ GoesTo target s t :=
  ⟨s.setPc target, by rw [exec_eq, h], goesTo_setPc s target⟩

/-- An instruction whose meaning is the link and then `pc <- target` answers a state with that effect. -/
theorem exec_callsTo {i : Instr} {target : Word} (h : nextState i s = s.link.setPc target) :
    ∃ t, exec i s = .next t ∧ CallsTo target s t :=
  ⟨s.link.setPc target, by rw [exec_eq, h], callsTo_link_setPc s target⟩

theorem nextState_br_taken {nzp : Cond} (off9 : BitVec 9) (h : nzp &&& s.cond ≠ 0#3) :
    nextState (.br nzp off9) s = s.setPc (s.pcRel off9) := by
  rw [nextState, if_pos h]

/-- To fall through is to go to the incremented PC, which `pc` already holds. -/
theorem nextState_br_not_taken {nzp : Cond} (off9 : BitVec 9) (h : nzp &&& s.cond = 0#3) :
    nextState (.br nzp off9) s = s.setPc s.pc := by
  rw [nextState, if_neg (not_not_intro h)]
  rfl

/-- The target of JSRR is the base register as the link leaves it (decision D21). -/
theorem nextState_jsrr (b : RegIdx) : nextState (.jsrr b) s = s.link.setPc (if b = 7#3 then s.pc else s.reg b) := by
  rw [← link_reg]
  rfl

/-- Settles O24: BR is `exec_goesTo`, taken or not. -/
theorem branchIsTakenWhenAFlagItNamesIsSet : Obligations.BranchIsTakenWhenAFlagItNamesIsSet :=
  fun s _ off9 =>
    ⟨fun h => exec_goesTo s (nextState_br_taken s off9 h), fun h => exec_goesTo s (nextState_br_not_taken s off9 h)⟩

/-- Settles O25: JMP and RET are `exec_goesTo`. -/
theorem jumpGoesToTheBaseRegister : Obligations.JumpGoesToTheBaseRegister :=
  fun s _ => ⟨exec_goesTo s rfl, exec_goesTo s rfl⟩

/-- Settles O26: all three are `exec_callsTo`; the base that JSRR reads is the old value unless it is R7, the link. -/
theorem callsLinkThroughR7BeforeTheyReadTheBase : Obligations.CallsLinkThroughR7BeforeTheyReadTheBase := by
  intro s b off11
  refine ⟨exec_callsTo s rfl, fun hb => exec_callsTo s ?_, exec_callsTo s ?_⟩
  · rw [nextState_jsrr, if_neg hb]
  · rw [nextState_jsrr, if_pos rfl]

end Sys2Proof.Machine
end

section
/-! Loads, stores and the load of an address (R85 to R93). -/

namespace Sys2Proof.Machine

variable (s : State)

/-! The loads and LEA (R86 to R89). -/

/-- A load from any cell but KBSR has its whole effect in `DR` and `cond`. -/
theorem load_of_ne (dr : RegIdx) {ea : Word} (h : ea ≠ s.cfg.kbsrAddr) : s.load dr ea = s.writeResult dr (s.rawRead ea) := by
  rw [State.load, readEffect_of_ne s h, readValue_of_ne s h]

/-- An instruction whose meaning is `x[DR] <- MemRead(ea, 1); setcc(DR)` in the state `u` answers a state with that effect. -/
theorem exec_load {i : Instr} {u : State} {dr : RegIdx} {ea : Word} (h : nextState i s = u.load dr ea) :
    ∃ t, exec i s = .next t ∧ WritesResult dr (u.readValue ea) (u.readEffect ea) t ∧
      (ea ≠ u.cfg.kbsrAddr → WritesResult dr (u.rawRead ea) u t) := by
  refine ⟨u.load dr ea, by rw [exec_eq, h], writesResult_writeResult _ dr _, fun hea => ?_⟩
  rw [load_of_ne u dr hea]
  exact writesResult_writeResult u dr _

/-- Settles O28: LD is `exec_load`. -/
theorem loadReadsThePcRelativeCell : Obligations.LoadReadsThePcRelativeCell :=
  fun s _ _ => exec_load s rfl

/-- Settles O29: LDI is `exec_load` in the state the read of the pointer leaves, which is `s` where that read is not a poll. -/
theorem loadIndirectReadsThroughThePointer : Obligations.LoadIndirectReadsThroughThePointer := by
  intro s dr off9
  obtain ⟨t, he, hw, hplain⟩ := exec_load s (i := .ldi dr off9) rfl
  refine ⟨t, he, ?_⟩
  rintro ea p u rfl rfl rfl
  refine ⟨hw, fun hea hp => ?_⟩
  have hea' : s.pcRel off9 ≠ s.cfg.kbsrAddr := hea
  rw [readEffect_cfg, readEffect_of_ne s hea'] at hplain
  rw [← readValue_of_ne s hea]
  exact hplain hp

/-- Settles O30: LDR is `exec_load`, at the address the base holds in `s`. -/
theorem loadBaseOffsetReadsTheCellItAddresses : Obligations.LoadBaseOffsetReadsTheCellItAddresses :=
  fun s _ _ _ => exec_load s rfl

/-- Settles O31: LEA is `x[DR] <- ea; setcc(DR)`, and that leaves the memory. -/
theorem loadEffectiveAddressSetsFlagsWithoutAnAccess : Obligations.LoadEffectiveAddressSetsFlagsWithoutAnAccess :=
  fun s dr off9 =>
    ⟨s.writeResult dr (s.pcRel off9), exec_eq _ _, writesResult_writeResult s dr _, writeResult_mem s dr _⟩

/-! The stores (R90 to R92). -/

/-- An instruction whose meaning is `MemWrite(a, 1, v)` in the state `u` answers a state with that effect. -/
theorem exec_storesAt {i : Instr} {u : State} {a v : Word} (h : nextState i s = u.memWrite a v) :
    ∃ t, exec i s = .next t ∧ StoresAt a v u t :=
  ⟨u.memWrite a v, by rw [exec_eq, h], storesAt_memWrite u a v⟩

/-- Settles O32: ST and STR are `exec_storesAt`. -/
theorem storesWriteTheCellTheyAddress : Obligations.StoresWriteTheCellTheyAddress :=
  fun s _ _ _ _ => ⟨exec_storesAt s rfl, exec_storesAt s rfl⟩

/-- Settles O33: STI is `exec_storesAt` in the state the read of the pointer leaves, which is `s` where that read is not a poll. -/
theorem storeIndirectWritesThroughThePointer : Obligations.StoreIndirectWritesThroughThePointer := by
  intro s sr off9
  obtain ⟨t, he, hst⟩ := exec_storesAt s (i := .sti sr off9) rfl
  refine ⟨t, he, ?_⟩
  rintro ea rfl
  refine ⟨hst, fun hea => ?_⟩
  have hea' : s.pcRel off9 ≠ s.cfg.kbsrAddr := hea
  rwa [readEffect_of_ne s hea', readValue_of_ne s hea'] at hst

/-! A store and then a load (R93). -/

/-- A load from the cell just stored to brings back the value, unless the read is a poll. -/
theorem load_memWrite_reg (dr : RegIdx) {a : Word} (v : Word) (h : a ≠ s.cfg.kbsrAddr) :
    ((s.memWrite a v).load dr a).reg dr = v := by
  rw [load_of_ne (s.memWrite a v) dr h, writeResult_reg_self, rawRead_memWrite_self]

/-- Settles O15: the store changes no register, so LDR computes the address of STR again, LD reaches it by hypothesis, and both are
`load_memWrite_reg`. -/
theorem storeThenLoadReturnsTheValue : Obligations.StoreThenLoadReturnsTheValue := by
  intro s sr b dr off6 h
  refine ⟨_, exec_eq _ _, ⟨_, exec_eq _ _, load_memWrite_reg s dr _ h⟩, fun off9 hea => ⟨_, exec_eq _ _, ?_⟩⟩
  rw [nextState, hea]
  exact load_memWrite_reg s dr _ h

end Sys2Proof.Machine
end

section
/-! TRAP and the six services (R95 to R105). -/

namespace Sys2Proof.Machine

variable (s : State)

/-! What every routine leaves (R96). -/

theorem trapFrame_setHeld (h : Option Held) : TrapFrame s (s.setHeld h) :=
  ⟨rfl, rfl, fun _ => rfl, fun _ _ => rfl, rfl, rfl, rfl⟩

/-- OUT, PUTS and PUTSP; OUT leaves `held` too. -/
theorem trapFrame_output (bs : List Byte) (h : Option Held) : TrapFrame s ((s.outPut bs).setHeld h) :=
  ⟨rfl, rfl, fun _ => rfl, fun _ _ => rfl, rfl, rfl, rfl⟩

theorem trapFrame_halt : TrapFrame s s.halt :=
  ⟨rfl, rfl, fun _ => rfl, fun _ _ => rfl, rfl, rfl, rfl⟩

theorem trapFrame_getc : TrapFrame s s.getc :=
  ⟨getc_pc s, getc_cond s, rawRead_congr (getc_mem s), fun _ => getc_reg_of_ne s, getc_env s, getc_later s, getc_cfg s⟩

theorem trapFrame_promptIn : TrapFrame s s.promptIn :=
  ⟨promptIn_pc s, promptIn_cond s, rawRead_congr (promptIn_mem s), fun _ => promptIn_reg_of_ne s, promptIn_env s,
    promptIn_later s, promptIn_cfg s⟩

theorem trapFrame_trap (v : BitVec 8) : TrapFrame s (nextState (.trap v) s) := by
  rcases trap_cases v with ⟨rfl, _⟩ | ⟨rfl, _⟩ | ⟨rfl, _⟩ | ⟨rfl, _⟩ | ⟨rfl, _⟩ | ⟨rfl, _⟩ | ⟨_, h⟩
  · exact trapFrame_getc s
  · exact trapFrame_output s _ s.held
  · exact trapFrame_output s _ _
  · exact trapFrame_promptIn s
  · exact trapFrame_output s _ _
  · exact trapFrame_halt s
  · rw [← eq_nextState (h s)]
    exact trapFrame_setHeld s s.held

theorem trapFrame_nextState {i : Instr} (hi : i.isTrap = true) : TrapFrame s (nextState i s) := by
  cases i with
  | trap v => exact trapFrame_trap s v
  | trapGetc => exact trapFrame_getc s
  | trapOut => exact trapFrame_output s _ s.held
  | trapPuts | trapPutsp => exact trapFrame_output s _ _
  | trapIn => exact trapFrame_promptIn s
  | trapHalt => exact trapFrame_halt s
  | _ => cases hi

/-! The rows of TRAP in the tables of R12. -/

theorem reads_subset_of_isTrap {i : Instr} (hi : i.isTrap = true) : i.reads ⊆ [0#3] := by
  cases i with
  | trap v =>
    rw [Instr.reads]
    split
    · exact List.Subset.refl _
    · exact List.nil_subset _
  | trapOut | trapPuts | trapPutsp => exact List.Subset.refl _
  | trapGetc | trapIn | trapHalt => exact List.nil_subset _
  | _ => cases hi

theorem writes_of_isTrap {i : Instr} (hi : i.isTrap = true) :
    i.writes = [] ∨ ((i = .trapGetc ∨ i = .trapIn ∨ i = .trap 0x20#8 ∨ i = .trap 0x23#8) ∧ i.writes = [0#3]) := by
  cases i with
  | trap v =>
    by_cases hv : v = 0x20#8 ∨ v = 0x23#8
    · exact .inr ⟨.inr (.inr (hv.imp (congrArg _) (congrArg _))), if_pos hv⟩
    · exact .inl (if_neg hv)
  | trapGetc => exact .inr ⟨.inl rfl, rfl⟩
  | trapIn => exact .inr ⟨.inr (.inl rfl), rfl⟩
  | trapOut | trapPuts | trapPutsp | trapHalt => exact .inl rfl
  | _ => cases hi

theorem writes_subset_of_isTrap {i : Instr} (hi : i.isTrap = true) : i.writes ⊆ [0#3] := by
  rcases writes_of_isTrap hi with h | ⟨_, h⟩ <;> simp [h]

theorem sameRegs_nextState {i : Instr} (hw : i.writes = []) : SameRegs s (nextState i s) :=
  fun r => (effect_nextState i s).reg (by simp [hw])

theorem setReg_of_reg_eq {r : RegIdx} {v : Word} (h : s.reg r = v) : s.setReg r v = s := by
  rw [← h]
  simp [State.setReg, State.reg]

/-- A register that an instruction neither reads nor writes is carried along. -/
theorem nextState_setReg {i : Instr} {r : RegIdx} (hr : r ∉ i.reads) (hw : r ∉ i.writes) (v : Word) :
    nextState i (s.setReg r v) = (nextState i s).setReg r v := by
  have hv : (nextState i (s.setReg r v)).reg r = v := by rw [(effect_nextState i _).reg hw, reg_setReg_self]
  calc
    nextState i (s.setReg r v)
    _ = (nextState i (s.setReg r v)).setReg r v := (setReg_of_reg_eq _ hv).symm
    _ = (nextState i s).setReg r v := nextState_sameUpTo s v hr v

/-- Settles O34: the frame is `trapFrame_nextState`; R0 is in the row of writes of GETC and IN only, and no other register
is in a row of reads or writes. -/
theorem trapRoutinesLeaveAllButTheirOwnContract : Obligations.TrapRoutinesLeaveAllButTheirOwnContract := by
  intro i s hi
  refine ⟨nextState i s, exec_eq i s, trapFrame_nextState s hi, fun h1 h2 h3 h4 => ?_, fun r v hr => ?_⟩
  · rcases writes_of_isTrap hi with hw | ⟨h, _⟩
    · exact sameRegs_nextState s hw
    · rcases h with h | h | h | h
      exacts [absurd h h1, absurd h h2, absurd h h3, absurd h h4]
  · have hnot : r ∉ [0#3] := by simpa using hr
    rw [exec_eq, nextState_setReg s (fun h => hnot (reads_subset_of_isTrap hi h)) fun h => hnot (writes_subset_of_isTrap hi h)]

/-! GETC and IN (R97, R100, R104). -/

/-- `s` once a routine has taken `c` from a queue that holds `rest` behind it, output `echo` and completed. -/
def State.takeChar (s : State) (c : Byte) (rest echo : List Byte) : State :=
  (({ s with inq := rest }.setReg 0#3 (zext8 c)).outPut echo).setHeld none

theorem getc_eq_takeChar {c : Byte} {rest : List Byte} (h : s.inq = c :: rest) : s.getc = s.takeChar c rest [] := by
  rw [getc_of_cons s h, State.takeChar, State.outPut, List.append_nil]

theorem finishIn_eq_takeChar {c : Byte} {rest : List Byte} (h : s.inq = c :: rest) :
    s.finishIn = s.takeChar c rest [c] := finishIn_of_cons s h

theorem takeChar_reg_zero (c : Byte) (rest echo : List Byte) : (s.takeChar c rest echo).reg 0#3 = c.zeroExtend 16 :=
  reg_setReg_self _ _ _

theorem trapFrame_takeChar (c : Byte) (rest echo : List Byte) : TrapFrame s (s.takeChar c rest echo) :=
  ⟨rfl, rfl, fun _ => rfl, fun _ hr => reg_setReg_of_ne { s with inq := rest } _ hr, rfl, rfl, rfl⟩

/-- Settles O35: GETC is `takeChar` with no echo. -/
theorem getcTakesTheOldestCharacter : Obligations.GetcTakesTheOldestCharacter := by
  intro s c rest h
  exact ⟨s.takeChar c rest [], by rw [exec_eq, nextState, getc_eq_takeChar s h], takeChar_reg_zero s c rest [],
    trapFrame_takeChar s c rest [], rfl, List.append_nil _, rfl, rfl⟩

/-- Settles O36: IN is the prompt and then `takeChar` with the echo. -/
theorem inPromptsTakesACharacterAndEchoesIt : Obligations.InPromptsTakesACharacterAndEchoesIt := by
  intro s c rest h
  have hin : s.promptIn = (s.outPut s.cfg.inPrompt).takeChar c rest [c] := finishIn_eq_takeChar (s.outPut s.cfg.inPrompt) h
  exact ⟨(s.outPut s.cfg.inPrompt).takeChar c rest [c], by rw [exec_eq, nextState, hin], takeChar_reg_zero _ c rest [c],
    hin ▸ trapFrame_promptIn s, rfl, rfl, rfl, rfl⟩

/-- Settles O37: an empty queue leaves GETC with `held` set, and IN so after its prompt. -/
theorem getcAndInAreHeldWhileNoCharacterWaits : Obligations.GetcAndInAreHeldWhileNoCharacterWaits := by
  intro s h
  have hin : s.promptIn = (s.outPut s.cfg.inPrompt).setHeld (some .inp) := finishIn_of_empty (s.outPut s.cfg.inPrompt) h
  exact ⟨⟨s.setHeld (some .getc), by rw [exec_eq, nextState, getc_of_empty s h], rfl, trapFrame_setHeld s _, fun _ => rfl,
      ⟨rfl, rfl⟩, rfl⟩,
    ⟨(s.outPut s.cfg.inPrompt).setHeld (some .inp), by rw [exec_eq, nextState, hin], rfl, trapFrame_output s _ _,
      fun _ => rfl, h, rfl, rfl⟩⟩

/-! A held GETC or IN (R104, R129). -/

theorem setHeld_of_held_eq {h : Option Held} (hh : s.held = h) : s.setHeld h = s := by
  rw [← hh]
  rfl

theorem resume_read_of_empty {k : Held} (hk : k = .getc ∨ k = .inp) (h : s.inq = []) : s.resume k = s.setHeld (some k) := by
  rcases hk with rfl | rfl
  · exact getc_of_empty s h
  · exact finishIn_of_empty s h

theorem resume_read_of_cons {k : Held} (hk : k = .getc ∨ k = .inp) {c : Byte} {rest : List Byte} (h : s.inq = c :: rest) :
    s.resume k = s.takeChar c rest (if some k = some .inp then [c] else []) := by
  rcases hk with rfl | rfl
  · exact getc_eq_takeChar s h
  · exact finishIn_eq_takeChar s h

/-- Settles O38: the step goes on with the routine in the state the environment's move leaves, and that move changes no more than the
queue and the coming moves. -/
theorem aHeldReadCompletesWhenACharacterArrives : Obligations.AHeldReadCompletesWhenACharacterArrives := by
  intro s hv hrun hr hheld
  obtain ⟨k, hk, hh⟩ : ∃ k : Held, (k = .getc ∨ k = .inp) ∧ s.held = some k := by
    rcases hheld with h | h
    · exact ⟨_, .inl rfl, h⟩
    · exact ⟨_, .inr rfl, h⟩
  rw [step_held s hv hrun hr hh, hh]
  refine ⟨fun h => ?_, fun c rest h => ⟨_, rfl, ?_⟩⟩
  · rw [resume_read_of_empty _ hk h, setHeld_of_held_eq _ ((envMove_held s hr).trans hh)]
  · rw [resume_read_of_cons _ hk h]
    generalize (if some k = some Held.inp then [c] else []) = echo
    obtain ⟨hpc, hcond, hmem, hreg, -⟩ := trapFrame_takeChar s.envMove c rest echo
    exact ⟨rfl, takeChar_reg_zero _ c rest echo, fun r hne => (hreg r hne).trans (reg_congr (envMove_x s hr) r),
      hpc.trans (envMove_pc s hr), hcond.trans (envMove_cond s hr), fun a => (hmem a).trans (rawRead_congr (envMove_mem s hr) a),
      (envMove_run s hr).trans hrun, rfl, congrArg (· ++ echo) (envMove_out s hr)⟩

/-! PUTS and PUTSP (R99, R101, R104). -/

theorem putsChars_eq (w : Word) : putsChars w = [w.setWidth 8] := by
  rw [putsChars, lowByte_eq]

theorem putspChars_eq (w : Word) :
    putspChars w = if (w >>> 8).setWidth 8 ≠ 0#8 then [w.setWidth 8, (w >>> 8).setWidth 8] else [w.setWidth 8] := by
  rw [putspChars, lowByte_eq, highByte_eq, ite_not]

theorem lap_of_string (chars : Word → List Byte) (k : Held) {ws : List Word} (h : StringAt s (s.reg 0#3) ws) :
    s.lap chars k = (s.outPut (ws.flatMap chars)).setHeld none := by
  rw [lap_eq, walkString_of_string s chars ws 65536 _ (stringAt_length s ws _ h) h, if_pos rfl]

theorem lap_of_noZero (chars : Word → List Byte) (k : Held) (h : NoZeroCell s) :
    s.lap chars k =
      (s.outPut ((List.range 65536).flatMap fun n => chars (s.rawRead (s.reg 0#3 + BitVec.ofNat 16 n)))).setHeld (some k) := by
  rw [lap_eq, walkString_of_noZero s chars h, if_neg Bool.false_ne_true]

/-- A lap that meets a string completes the routine. -/
theorem exec_lap_of_string {i : Instr} {chars : Word → List Byte} {k : Held} (hi : nextState i s = s.lap chars k)
    {ws : List Word} (h : StringAt s (s.reg 0#3) ws) :
    ∃ t, exec i s = .next t ∧ t.out = s.out ++ ws.flatMap chars ∧ TrapFrame s t ∧ SameRegs s t ∧ t.inq = s.inq ∧
      t.run = s.run ∧ t.held = none :=
  ⟨(s.outPut (ws.flatMap chars)).setHeld none, by rw [exec_eq, hi, lap_of_string s chars k h], rfl, trapFrame_output s _ _,
    fun _ => rfl, rfl, rfl, rfl⟩

/-- A lap that meets no zero cell leaves the machine inside the routine. -/
theorem exec_lap_of_noZero {i : Instr} {chars : Word → List Byte} {k : Held} (hi : nextState i s = s.lap chars k)
    (h : NoZeroCell s) :
    ∃ t, exec i s = .next t ∧ t.held = some k ∧ TrapFrame s t ∧ SameRegs s t ∧ t.run = s.run ∧
      t.out = s.out ++ (List.range 65536).flatMap fun n => chars (s.rawRead (s.reg 0#3 + BitVec.ofNat 16 n)) :=
  ⟨_, by rw [exec_eq, hi, lap_of_noZero s chars k h], rfl, trapFrame_output s _ _, fun _ => rfl, rfl, rfl⟩

/-- Settles O40: `exec_lap_of_string`, with one byte for each cell. -/
theorem putsWritesTheStringAtR0 : Obligations.PutsWritesTheStringAtR0 := by
  intro s ws h
  rw [List.map_eq_flatMap, ← funext putsChars_eq]
  exact exec_lap_of_string s rfl h

/-- Settles O41: `exec_lap_of_string`, with one or two bytes for each cell. -/
theorem putspWritesThePackedStringAtR0 : Obligations.PutspWritesThePackedStringAtR0 := by
  intro s ws h
  rw [← funext putspChars_eq]
  exact exec_lap_of_string s rfl h

/-- Settles O42: each lap is `exec_lap_of_noZero`, and a later step walks it again in a memory that the environment's move leaves. -/
theorem aWalkWithoutAZeroCellNeverCompletes : Obligations.AWalkWithoutAZeroCellNeverCompletes := by
  intro s h
  refine ⟨?_, ?_, fun hv hrun hr => ⟨fun a => ?_, fun hh => ?_, fun hh => ?_⟩⟩
  · simp only [List.map_eq_flatMap, ← putsChars_eq]
    exact exec_lap_of_noZero s rfl h
  · simp only [← putspChars_eq]
    exact exec_lap_of_noZero s rfl h
  · rw [rawRead_congr (envMove_mem s hr)]
    exact h a
  · rw [step_held s hv hrun hr hh, exec_eq]
    rfl
  · rw [step_held s hv hrun hr hh, exec_eq]
    rfl

/-! OUT and HALT (R98, R102). -/

/-- Settles O39: OUT is `outPut` of the low byte. -/
theorem outWritesTheLowByteOfR0 : Obligations.OutWritesTheLowByteOfR0 := by
  intro s
  refine ⟨s.outChar, exec_eq _ _, ?_, trapFrame_output s _ s.held, fun _ => rfl, rfl, rfl, rfl⟩
  rw [State.outChar, outPut_out, lowByte_eq]

/-- Settles O43: HALT is `outPut` of the notice and the clearing of the latch. -/
theorem haltWritesTheNoticeAndClearsTheRunLatch : Obligations.HaltWritesTheNoticeAndClearsTheRunLatch :=
  fun s => ⟨s.halt, exec_eq _ _, rfl, rfl, trapFrame_halt s, fun _ => rfl, rfl, rfl⟩

/-! The vectors (R95, R103). -/

theorem isServiceVector_eq_false {v : BitVec 8} (h : v.toNat < 0x20 ∨ 0x25 < v.toNat) : isServiceVector v = false := by
  simp only [isServiceVector, BitVec.le_def, BitVec.toNat_ofNat, Bool.and_eq_false_iff, decide_eq_false_iff_not]
  omega

theorem exec_trap_of_not_service {v : BitVec 8} (h : isServiceVector v = false) (s : State) : exec (.trap v) s = .next s := by
  rcases trap_cases v with ⟨rfl, _⟩ | ⟨rfl, _⟩ | ⟨rfl, _⟩ | ⟨rfl, _⟩ | ⟨rfl, _⟩ | ⟨rfl, _⟩ | ⟨_, hv⟩
  on_goal 7 => exact hv s
  all_goals cases h

theorem decode_trap_word {w : Word} (h : opField w = 0xF#4) : decode w = decodeTrap (w.setWidth 8) :=
  (decode_opF h).trans (congrArg decodeTrap (lowByte_eq w))

/-- Settles O44: the decoder looks at the low byte alone (`decode_trap_word`); outside the six service vectors it gives `.trap v`,
which does nothing (`exec_trap_of_not_service`). -/
theorem theVectorSelectsTheRoutine : Obligations.TheVectorSelectsTheRoutine := by
  refine ⟨fun w h => ?_, fun s => ⟨rfl, rfl, rfl, rfl, rfl, rfl,
    fun v hv => exec_trap_of_not_service (isServiceVector_eq_false hv) s⟩⟩
  rw [decode_trap_word h]
  refine ⟨congrArg decodeTrap, congrArg decodeTrap, congrArg decodeTrap, congrArg decodeTrap, congrArg decodeTrap,
    congrArg decodeTrap, fun hv s => ?_⟩
  have hv := isServiceVector_eq_false hv
  rw [decodeTrap_of_wf (by rw [Instr.wf, hv]; rfl), exec_trap_of_not_service hv]

end Sys2Proof.Machine
end

section
/-! The reserved opcodes (R110 to R112, decision D12). -/

namespace Sys2Proof.Machine

/-- RTI and RES are no operation, and each of the two opcodes decodes to one of them whatever its other twelve bits. -/
theorem exec_decode_reserved {w : Word} (h : opField w = 0x8#4 ∨ opField w = 0xD#4) (s : State) :
    exec (decode w) s = .next s := by
  rcases h with h | h
  · rw [decode_op8 h, exec_eq, nextState]
  · rw [decode_opD h, exec_eq, nextState]

/-- Settles O45: away from KBSR_ADDR the step is `exec` of the word in the cell at `pc` (`step_of_fetches_of_ne`), which does
nothing (`exec_decode_reserved`). -/
theorem reservedOpcodesAreNoOps : Obligations.ReservedOpcodesAreNoOps := by
  refine ⟨fun s => ⟨exec_eq _ _, exec_eq _ _⟩, fun s hf hpc hop => ?_⟩
  rw [step_of_fetches_of_ne s hf hpc, exec_decode_reserved hop]

end Sys2Proof.Machine
end

section
/-! No exceptions (R115, R116, R141). -/

namespace Sys2Proof.Machine

/-- Settles O9: `nextState` is total, so every instruction completes (`exec_eq`); each of the four things a step of an accepted
configuration can do, a reset, a halted step, a held routine or a fetched instruction, answers a next state
(`step_next_of_valid`). -/
theorem noInstructionAndNoStepStops : Obligations.NoInstructionAndNoStepStops :=
  ⟨fun i s => ⟨nextState i s, exec_eq i s⟩, step_next_of_valid⟩

end Sys2Proof.Machine
end

section
/-! The moves of the environment, one lemma for each, and the step after it (R23, R135, R141). -/

namespace Sys2Proof.Machine

variable (s : State)

theorem envMove_of_arrive {cs : List Byte} {rest : List EnvMove} (h : s.env = .arrive cs :: rest) :
    s.envMove = { s with inq := s.inq ++ cs, env := rest } := by
  rw [State.envMove, h]
  rfl

theorem envMove_of_reset_cons {rest : List EnvMove} (h : s.env = .reset :: rest) :
    s.envMove = { s with env := rest }.applyReset := by
  rw [State.envMove, h]

/-- Settles O6: the step is `step_of_fetches`, and each move of the environment but a reset has its lemma. -/
theorem stepRunsTheDecodedInstruction : Obligations.StepRunsTheDecodedInstruction :=
  fun s hf => ⟨step_of_fetches s hf, fun _ _ => envMove_of_arrive s, envMove_of_quiet s,
    fun _ _ he hl => (envMove_of_nil s he).trans (laterMove_of_endless s hl)⟩

/-- While reset is applied the engine performs no step, in whatever condition it is. -/
theorem step_of_resetNext (hv : s.cfg.valid = true) (hr : s.resetNext = true) : step s = .next s.envMove := by
  rcases step_cases s hv with ⟨_, e⟩ | ⟨hr', _⟩ | ⟨_, hr', _⟩ | ⟨⟨_, _, _, hr'⟩, _⟩
  · exact e
  all_goals simp [hr] at hr'

theorem applyReset_reg (r : RegIdx) : s.applyReset.reg r = 0x0000#16 := by
  simp [State.reg]

/-- Settles O50: the step answers what `applyReset` leaves, which sets the registers and no cell and no channel. -/
theorem resetRestartsTheEngineFromAnyCondition : Obligations.ResetRestartsTheEngineFromAnyCondition := by
  intro s rest hv he
  have hr : s.resetNext = true := by rw [State.resetNext, he]
  refine ⟨{ s with env := rest }.applyReset, ?_, applyReset_reg _, rfl, rfl, rfl, rfl, fun _ => rfl, ⟨rfl, rfl⟩, rfl, rfl, rfl⟩
  rw [step_of_resetNext s hv hr, envMove_of_reset_cons s he]

end Sys2Proof.Machine
end

section
/-! The end of a run (R18, R102, R143). -/

namespace Sys2Proof

/-- The row of HALT fixes the opcode and the vector, and no other bit. -/
theorem decode_eq_trapHalt_iff (w : Word) : decode w = .trapHalt ↔ opField w = 0xF#4 ∧ vectField w = 0x25#8 := by
  refine ⟨fun hd => ?_, fun ⟨hop, hv⟩ => by rw [decode_opF hop, hv]; rfl⟩
  obtain ⟨hrow, -⟩ := decode_matches w
  rw [hd] at hrow
  have hfixed : w &&& ~~~0x0F00#16 = 0xF025#16 &&& ~~~0x0F00#16 := hrow
  exact ⟨field_eq_of_masked hfixed 12 4 rfl, field_eq_of_masked hfixed 0 8 rfl⟩

end Sys2Proof

namespace Sys2Proof.Machine

variable {s t : State}

theorem MemReads.run (h : MemReads s t) : t.run = s.run := by
  induction h with
  | none => rfl
  | read a _ ih => rw [readEffect_run, ih]

/-- Only HALT touches the run latch, and HALT outputs. -/
theorem Effect.run {i : Instr} (h : Effect i s t) (ho : i.outputs = false) : t.run = s.run := by
  cases h with
  | result v _ _ hu => exact hu.run
  | store a v _ hu => exact hu.run
  | jump | call | nothing | output => rfl
  | getc => exact getc_run s
  | promptIn => exact promptIn_run s
  | halt _ ho' => simp [ho] at ho'

/-- Of the terms the decoder can give, only HALT touches the run latch. -/
theorem nextState_run_of_ne_trapHalt {i : Instr} (hwf : i.wf = true) (hi : i ≠ .trapHalt) : (nextState i s).run = s.run := by
  cases i with
  | trapHalt => exact absurd rfl hi
  | trapOut | trapPuts | trapPutsp => rfl
  | trapIn => exact promptIn_run s
  | trap v =>
    have hv : isServiceVector v = false := by simpa [Instr.wf] using hwf
    rw [← eq_nextState (exec_trap_of_not_service hv s)]
  | _ => exact (effect_nextState _ s).run rfl

/-- No routine that can be held is HALT. -/
theorem resume_run (s : State) (k : Held) : (s.resume k).run = s.run := by
  cases k with
  | getc => exact getc_run s
  | inp => exact finishIn_run s
  | puts => exact puts_run s
  | putsp => exact putsp_run s

/-- A step that fetches clears the run latch exactly where the word it fetches is HALT. -/
theorem run_eq_false_iff_of_fetches (hf : s.Fetches) (h : step s = .next t) :
    t.run = false ↔ decode s.envMove.fetchWord = .trapHalt := by
  rw [step_of_fetches s hf] at h
  obtain rfl := eq_nextState h
  obtain ⟨-, hrun, -, hr⟩ := hf
  refine ⟨fun hstop => ?_, fun hd => by rw [hd]; rfl⟩
  by_contra hd
  rw [nextState_run_of_ne_trapHalt (decode_wf _) hd, afterFetch_run, envMove_run s hr, hrun] at hstop
  cases hstop

/-- The word a poll leaves in KBSR is no HALT, so a step that clears the run latch has fetched from another cell. -/
theorem pc_ne_kbsr_of_halts (hf : s.Fetches) (h : step s = .next t) (hstop : t.run = false) : s.pc ≠ s.cfg.kbsrAddr := by
  intro hpc
  obtain ⟨-, hrun, -, hr⟩ := id hf
  have hpc' : s.envMove.pc = s.envMove.cfg.kbsrAddr := by rw [envMove_pc s hr, envMove_cfg s hr, hpc]
  rw [step_of_fetch_kbsr s hf hpc'] at h
  cases h
  rw [afterFetch_run, envMove_run s hr, hrun] at hstop
  cases hstop

/-- What a step that clears the run latch leaves: HALT's state, after a fetch that has only advanced `pc`. -/
theorem eq_halt_of_halts (hf : s.Fetches) (h : step s = .next t) (hstop : t.run = false) :
    t = (s.envMove.setPc (s.pc + 1#16)).halt := by
  obtain ⟨-, -, -, hr⟩ := id hf
  have hd := (run_eq_false_iff_of_fetches hf h).mp hstop
  have hpc : s.envMove.pc ≠ s.envMove.cfg.kbsrAddr := by
    rw [envMove_pc s hr, envMove_cfg s hr]
    exact pc_ne_kbsr_of_halts hf h hstop
  obtain ⟨-, ha⟩ := fetch_of_ne s.envMove hpc
  rw [step_of_fetches s hf, hd, ha, envMove_pc s hr] at h
  exact eq_nextState h

/-- A running machine without a reset coming either goes on with a held routine, which leaves it running, or fetches. -/
theorem run_true_or_fetches (hv : s.cfg.valid = true) (hrun : s.run = true) (hr : s.resetNext = false)
    (h : step s = .next t) : (s.held ≠ none ∧ t.run = true) ∨ s.Fetches := by
  cases hh : s.held with
  | none => exact .inr ⟨hv, hrun, hh, hr⟩
  | some k =>
    rw [step_held s hv hrun hr hh] at h
    cases h
    exact .inl ⟨nofun, by rw [resume_run, envMove_run s hr, hrun]⟩

/-- Settles O52: a held routine leaves the machine running; a step that fetches stops it exactly at HALT
(`run_eq_false_iff_of_fetches`), whose words are those of `decode_eq_trapHalt_iff`, and then answers the state of
`eq_halt_of_halts`. -/
theorem aRunEndsExactlyAtTrapHalt : Obligations.ARunEndsExactlyAtTrapHalt := by
  intro s t hv hrun hr h
  rcases run_true_or_fetches hv hrun hr h with ⟨hheld, hgoes⟩ | hf
  · exact ⟨by simp [hheld, hgoes], by simp [hgoes]⟩
  · obtain ⟨-, -, hheld, -⟩ := id hf
    refine ⟨?_, fun hstop => ?_⟩
    · rw [run_eq_false_iff_of_fetches hf h, decode_eq_trapHalt_iff]
      simp [hheld]
    · obtain rfl := eq_halt_of_halts hf h hstop
      refine ⟨rfl, reg_congr (envMove_x s hr), envMove_cond s hr, rawRead_congr (envMove_mem s hr), ?_, rfl⟩
      rw [State.halt, stop_out, outPut_out, setPc_out, setPc_cfg, envMove_out s hr, envMove_cfg s hr]

end Sys2Proof.Machine
end
